-- ==== Sys2Proof/Word.lean ====
section
/-! DEFINITION. The word types of the unit (spec/00_scope.md R6, R8). -/

namespace Sys2Proof

/-- One host data word, one limb, one command word (R6: LIMB = 32). -/
abbrev Word := BitVec 32

/-- One byte lane of a word (spec/20_memory.md R54). -/
abbrev Byte := BitVec 8

/-- A register field's value: it selects one of the eight operand registers (R20, R83). -/
abbrev RegIdx := Fin 8

end Sys2Proof
end

