-- ==== Sys2Proof/Config.lean ====
section
/-! DEFINITION. What is fixed for the unit, and the free values the spec leaves open. -/

namespace Sys2Proof.Config

/-- PARAM.NREG, fixed at 8 (spec/00_scope.md R6, spec/10_state.md R26). -/
def nreg : BitVec 8 := 8#8

/-- PARAM.REV, command set revision 1 (spec/10_state.md R26). -/
def rev : BitVec 8 := 0x01#8

/-- DESIGN CHOICE (log entry 1): the NLIMB that `State.reset` is given. The spec leaves NLIMB open (R6);
the model's statements hold for every value of the state field `nlimb`. Unsafe if a claim rests on the 1. -/
def resetNlimb : Nat := 1

/-- DESIGN CHOICE (log entry 1): the BASE that `State.reset` is given. The spec leaves BASE open (R6, R50).
Unsafe if a claim rests on the 0. -/
def resetBase : Nat := 0

/-- DESIGN CHOICE (log entries 3, 4): the 32-bit value an operand-window read returns while BUSY
(spec/20_memory.md R59, 'a draw, free of any law'). No body: nothing can be proved of a value. Safe. -/
opaque freeWord : Nat → Word

/-- DESIGN CHOICE (log entry 3): the value an operand register takes where the spec says 'unspecified'
(spec/10_state.md R22, spec/70_reset_and_hazards.md R231); the user reduces it below 2^W. No body. Safe. -/
opaque freeOperand : Nat → Nat

end Sys2Proof.Config
end

