-- ==== Sys2Proof/Syntax.lean ====
section
/-! DEFINITION. The command set: one constructor per row of spec/opcode_table.json (spec/30_encoding.md R82),
and the pseudo-commands of R91 as other names of the same commands. -/

namespace Sys2Proof

/-- The six commands (R82). Register fields stand in the order of the command word's names RD, RA, RB, RM;
a field the command must leave zero (R84) is no operand. -/
inductive Instr where
  /-- MODMUL: R[rd] <- (R[ra] * R[rb]) mod R[rm] (spec/40_modmul.md R100). -/
  | modmul (rd ra rb rm : RegIdx)
  /-- MODEXP: R[rd] <- R[ra] ^ R[rb] mod R[rm] (spec/41_modexp.md R120). -/
  | modexp (rd ra rb rm : RegIdx)
  /-- EGCD: R[rd], R[rd+1], R[rd+2] <- |x|, |y|, g (spec/42_egcd_modinv.md R141). -/
  | egcd (rd ra rb : RegIdx)
  /-- MODINV: R[rd] <- the inverse of R[rb] modulo R[ra] (spec/42_egcd_modinv.md R144). -/
  | modinv (rd ra rb : RegIdx)
  /-- MRROUND: one Miller–Rabin round of R[ra] with witness R[rb] (spec/43_miller_rabin.md R163). -/
  | mrround (ra rb : RegIdx)
  /-- MRTEST: the primality test of R[ra] (spec/43_miller_rabin.md R165). -/
  | mrtest (ra : RegIdx)
  deriving DecidableEq, Repr

namespace Instr

/-- `MODSQR Rd, Ra, Rm` is `MODMUL Rd, Ra, Ra, Rm` (R91). -/
abbrev modsqr (rd ra rm : RegIdx) : Instr := .modmul rd ra ra rm

/-- `ENCRYPT Rc, Rmsg, Re, Rn` is `MODEXP Rc, Rmsg, Re, Rn` (R91; spec/41_modexp.md R123). -/
abbrev encrypt (rc rmsg re rn : RegIdx) : Instr := .modexp rc rmsg re rn

/-- `DECRYPT Rmsg, Rc, Rd, Rn` is `MODEXP Rmsg, Rc, Rd, Rn` (R91; spec/41_modexp.md R123). -/
abbrev decrypt (rmsg rc rd rn : RegIdx) : Instr := .modexp rmsg rc rd rn

/-- The command's name, as spec/opcode_table.json spells it. -/
def mnemonic : Instr → String
  | .modmul _ _ _ _ => "MODMUL"
  | .modexp _ _ _ _ => "MODEXP"
  | .egcd _ _ _ => "EGCD"
  | .modinv _ _ _ => "MODINV"
  | .mrround _ _ => "MRROUND"
  | .mrtest _ => "MRTEST"

end Instr

end Sys2Proof
end

