-- ==== Sys2Proof/WellFormed.lean ====
section
/-! DEFINITION. Which terms of `Instr` are commands the unit has. The register fields' range 0..7 is in their
type; the one other check is EGCD's (spec/30_encoding.md R85). -/

namespace Sys2Proof

/-- EGCD's three destinations R[RD], R[RD+1], R[RD+2] must stay within R0..R7: RD ≤ 5 (R85). Every index is
legal in every other field (R83). -/
def Instr.wf : Instr → Bool
  | .modmul _ _ _ _ => true
  | .modexp _ _ _ _ => true
  | .egcd rd _ _ => decide (rd ≤ 5)
  | .modinv _ _ _ => true
  | .mrround _ _ => true
  | .mrtest _ => true

end Sys2Proof
end

