-- ==== Sys2Proof/Decode.lean ====
section
/-! DEFINITION. From command words to commands and back (spec/30_encoding.md R80–R92). The decoder is total and
refuses by name; the encoder stands after it; the rows of spec/opcode_table.json and the assembler syntax follow. -/

namespace Sys2Proof

/-- The fields of a command word (R81): `v[3:0]`, `v[6:4]`, `v[9:7]`, `v[12:10]`, `v[15:13]`, `v[31:16]`. -/
def opField (v : Word) : BitVec 4 := v.extractLsb' 0 4
def rdField (v : Word) : RegIdx := (v.extractLsb' 4 3).toFin
def raField (v : Word) : RegIdx := (v.extractLsb' 7 3).toFin
def rbField (v : Word) : RegIdx := (v.extractLsb' 10 3).toFin
def rmField (v : Word) : RegIdx := (v.extractLsb' 13 3).toFin
def zeroField (v : Word) : BitVec 16 := v.extractLsb' 16 16

/-- Why a word is no command (R84, R85, R86, R87). The unit reports each of the reasons about a whole word as
ILLEGAL_COMMAND. -/
inductive DecodeError where
  /-- bits [31:16] are not all zero -/
  | highBits
  /-- opcode 0x0 or 0x7..0xF -/
  | reservedOpcode
  /-- RD is not zero in a command that does not use it -/
  | rdNotZero
  /-- RB is not zero in a command that does not use it -/
  | rbNotZero
  /-- RM is not zero in a command that does not use it -/
  | rmNotZero
  /-- EGCD with RD = 6 or 7 -/
  | rdOutOfRange
  /-- fewer than the four bytes of a command word -/
  | truncated
  deriving DecidableEq, Repr

/-- R82, R84, R85, R86: the command a word stands for, or why it stands for none. -/
def decodeWord (v : Word) : Except DecodeError Instr :=
  if zeroField v ≠ 0 then .error .highBits
  else match (opField v).toNat with
    | 0x1 => .ok (.modmul (rdField v) (raField v) (rbField v) (rmField v))
    | 0x2 => .ok (.modexp (rdField v) (raField v) (rbField v) (rmField v))
    | 0x3 =>
      if rmField v ≠ 0 then .error .rmNotZero
      else if 5 < rdField v then .error .rdOutOfRange
      else .ok (.egcd (rdField v) (raField v) (rbField v))
    | 0x4 =>
      if rmField v ≠ 0 then .error .rmNotZero
      else .ok (.modinv (rdField v) (raField v) (rbField v))
    | 0x5 =>
      if rmField v ≠ 0 then .error .rmNotZero
      else if rdField v ≠ 0 then .error .rdNotZero
      else .ok (.mrround (raField v) (rbField v))
    | 0x6 =>
      if rmField v ≠ 0 then .error .rmNotZero
      else if rbField v ≠ 0 then .error .rbNotZero
      else if rdField v ≠ 0 then .error .rdNotZero
      else .ok (.mrtest (raField v))
    | _ => .error .reservedOpcode

/-- The 32-bit word of four little-endian byte lanes, lane 0 first (spec/20_memory.md R54). -/
def wordOfBytes (b0 b1 b2 b3 : Byte) : Word := b3 ++ b2 ++ b1 ++ b0

/-- Byte lane `k` of a word: bits `[8k+7 : 8k]` (spec/20_memory.md R54). -/
def byteLane (v : Word) (k : Nat) : Byte := v.extractLsb' (8 * k) 8

/-- The command at the front of a byte sequence and the rest: always four bytes (R80, R89). -/
def decodeBytes : List Byte → Except DecodeError (Instr × List Byte)
  | b0 :: b1 :: b2 :: b3 :: rest =>
    match decodeWord (wordOfBytes b0 b1 b2 b3) with
    | .ok i => .ok (i, rest)
    | .error e => .error e
  | _ => .error .truncated

/-- The command read from a table row's word: `w`'s low `nbits` bits, laid out as four little-endian bytes.
A row wider than the one 32-bit format (R80) is none. -/
def decodeTableWord (nbits w : Nat) : Option Instr :=
  let v := w % 2 ^ nbits
  if v < 2 ^ 32 then
    let word : Word := BitVec.ofNat 32 v
    match decodeBytes [byteLane word 0, byteLane word 1, byteLane word 2, byteLane word 3] with
    | .ok (i, _) => some i
    | .error _ => none
  else none

/-- A register index as its 3-bit field. -/
def regBits (r : RegIdx) : BitVec 3 := BitVec.ofFin r

/-- R81: the bit pattern `0000000000000000 mmm bbb aaa ddd oooo`. -/
def packWord (op : BitVec 4) (rd ra rb rm : RegIdx) : Word :=
  0#16 ++ regBits rm ++ regBits rb ++ regBits ra ++ regBits rd ++ op

/-- The opcode of a command (R82). -/
def Instr.opcode : Instr → BitVec 4
  | .modmul _ _ _ _ => 0x1#4
  | .modexp _ _ _ _ => 0x2#4
  | .egcd _ _ _ => 0x3#4
  | .modinv _ _ _ => 0x4#4
  | .mrround _ _ => 0x5#4
  | .mrtest _ => 0x6#4

/-- The command word of a command (R81, R82, R90); the word of an ill-formed EGCD is an illegal word. -/
def encode : Instr → Word
  | .modmul rd ra rb rm => packWord 0x1#4 rd ra rb rm
  | .modexp rd ra rb rm => packWord 0x2#4 rd ra rb rm
  | .egcd rd ra rb => packWord 0x3#4 rd ra rb 0
  | .modinv rd ra rb => packWord 0x4#4 rd ra rb 0
  | .mrround ra rb => packWord 0x5#4 0 ra rb 0
  | .mrtest ra => packWord 0x6#4 0 ra 0 0

/-- R86's check, line by line. -/
def legal (v : Word) : Bool :=
  if zeroField v ≠ 0 then false
  else match (opField v).toNat with
    | 0x1 | 0x2 => true
    | 0x3 => rmField v = 0 && decide (rdField v ≤ 5)
    | 0x4 => rmField v = 0
    | 0x5 => rdField v = 0 && decide (rmField v = 0)
    | 0x6 => rdField v = 0 && decide (rbField v = 0) && decide (rmField v = 0)
    | _ => false

/-- One row of spec/opcode_table.json. -/
structure OpRow where
  mnemonic : String
  mask : Word
  pattern : Word
  /-- the row's extra condition: bits [6:4] are not 6 or 7 (R85) -/
  rdAtMost5 : Bool
  deriving DecidableEq, Repr

/-- spec/opcode_table.json. -/
def opcodeTable : List OpRow :=
  [ ⟨"MODMUL", 0xFFFF000F#32, 0x00000001#32, false⟩,
    ⟨"MODEXP", 0xFFFF000F#32, 0x00000002#32, false⟩,
    ⟨"EGCD", 0xFFFFE00F#32, 0x00000003#32, true⟩,
    ⟨"MODINV", 0xFFFFE00F#32, 0x00000004#32, false⟩,
    ⟨"MRROUND", 0xFFFFE07F#32, 0x00000005#32, false⟩,
    ⟨"MRTEST", 0xFFFFFC7F#32, 0x00000006#32, false⟩ ]

/-- A row takes a word: `(v & mask) = match`, and the extra condition (R86). -/
def OpRow.takes (r : OpRow) (v : Word) : Bool :=
  decide (v &&& r.mask = r.pattern) && (!r.rdAtMost5 || decide (rdField v ≤ 5))

/-- A register's assembler name (R90). -/
def regName (r : RegIdx) : String := "R" ++ toString r.val

/-- The assembler syntax of R90. A pseudo-command prints as the command it expands to (R91). -/
def Instr.asm : Instr → String
  | .modmul rd ra rb rm =>
    "MODMUL " ++ regName rd ++ ", " ++ regName ra ++ ", " ++ regName rb ++ ", " ++ regName rm
  | .modexp rd ra rb rm =>
    "MODEXP " ++ regName rd ++ ", " ++ regName ra ++ ", " ++ regName rb ++ ", " ++ regName rm
  | .egcd rd ra rb => "EGCD " ++ regName rd ++ ", " ++ regName ra ++ ", " ++ regName rb
  | .modinv rd ra rb => "MODINV " ++ regName rd ++ ", " ++ regName ra ++ ", " ++ regName rb
  | .mrround ra rb => "MRROUND " ++ regName ra ++ ", " ++ regName rb
  | .mrtest ra => "MRTEST " ++ regName ra

end Sys2Proof
end

