-- ==== Sys2Proof/Machine/State.lean ====
section
/-! DEFINITION. The unit's state as plain data (spec/10_state.md, spec/20_memory.md R52, spec/70_reset_and_hazards.md
R230), the reasons a step can stop, and the state after reset. -/

namespace Sys2Proof.Machine

/-- STATUS.ERR's legal values (spec/60_exceptions.md R201). Codes 4..15 are never produced (log entry 19). -/
inductive ErrCode where
  /-- 0: the command succeeded -/
  | none
  /-- 1: an operand outside the command's domain -/
  | invalidArgument
  /-- 2: gcd(e, phi) ≠ 1 in MODINV -/
  | noInverse
  /-- 3: the command word fails R86 -/
  | illegalCommand
  deriving DecidableEq, Repr

/-- STATUS without BUSY, which is the sequencer's state (spec/10_state.md R24, R29). Reserved bits read 0. -/
structure Status where
  done : Bool
  result : Bool
  xneg : Bool
  yneg : Bool
  err : ErrCode
  lost : Bool
  deriving DecidableEq, Repr

/-- What the sequencer holds for the command in flight (spec/10_state.md R25, R34): the latched command word, the
latched operand values and CONFIG.ROUNDS, and, for MRTEST, whether a request to the entropy source is outstanding
and the responses received so far, first first (spec/43_miller_rabin.md R164). Log entries 7 and 9. -/
structure Held where
  word : Word
  src : Vector Nat 8
  rounds : BitVec 8
  requested : Bool
  responses : List Word
  deriving DecidableEq, Repr

/-- The sequencer's two states (spec/10_state.md R24). STATUS.BUSY is 1 exactly in `busy`. -/
inductive Sequencer where
  | idle
  | busy (cmd : Held)
  deriving DecidableEq, Repr

/-- A transaction offered at the host port (spec/20_memory.md R52). `size` is in bytes. -/
structure Access where
  addr : Nat
  write : Bool
  wdata : Word
  size : Nat
  bytemask : BitVec 4
  deriving DecidableEq, Repr

/-- The host port's answer (spec/20_memory.md R52, R55). R55 gives a write no read data (log entry 12). -/
inductive Response where
  /-- resp = OKAY with the read data -/
  | okayRead (rdata : Word)
  /-- resp = OKAY to a write -/
  | okayWrite
  /-- resp = ERROR, rdata = 0 -/
  | error
  deriving DecidableEq, Repr

/-- A transaction the port has answered. -/
structure Transaction where
  access : Access
  response : Response
  deriving DecidableEq, Repr

/-- What can happen next (spec/00_scope.md R5, spec/20_memory.md R61, spec/60_exceptions.md R209). Log entry 5. -/
inductive Event where
  /-- the sequencer takes its step -/
  | sequencer
  /-- the host presents a transaction -/
  | host (a : Access)
  /-- the entropy source delivers a 32-bit response -/
  | entropy (w : Word)
  /-- the reset pin `rst_n` is driven to this level -/
  | resetPin (level : Bool)
  /-- a transaction and the sequencer's step in one clock cycle; where R209 leaves their order free,
  `sequencerFirst` says which came first -/
  | sameCycle (a : Access) (sequencerFirst : Bool)
  deriving DecidableEq, Repr

/-- The state of the unit and of its surroundings. -/
structure State where
  /-- PARAM.NLIMB, an implementation parameter that no step changes (R6, R26; log entry 1) -/
  nlimb : Nat
  /-- BASE, a platform parameter that no step changes (R6, R50; log entry 1) -/
  base : Nat
  /-- R0..R7 (R20), each an integer in [0, 2^W) (R21) -/
  regs : Vector Nat 8
  /-- IDLE or BUSY with the latched command (R24, R25) -/
  seq : Sequencer
  /-- CTRL.IE (R27) -/
  ie : Bool
  /-- the last accepted command word (R28) -/
  cmdLast : Word
  /-- STATUS but BUSY (R29) -/
  status : Status
  /-- CONFIG.ROUNDS (R31) -/
  rounds : BitVec 8
  /-- the level of the reset pin `rst_n`; true is released (R52, R230) -/
  rstN : Bool
  /-- the last transaction the host port answered (R52, R55) -/
  port : Option Transaction
  /-- the model's own: what the outside world does next, first first (log entry 5) -/
  agenda : List Event
  /-- the model's own: how many free values have been drawn (log entry 3) -/
  freeCtr : Nat
  deriving DecidableEq, Repr

/-- Why the machine stops with a fault. -/
inductive Fault where
  /-- Raised by a host access whose address is not in the unit's 16 KiB region (spec/20_memory.md R50): the unit does
  not decode it, so it is no access to this unit. Safe. Log entry 11. -/
  | outsideRegion (addr : Nat)
  deriving DecidableEq, Repr

/-- Why the machine gives a step no meaning. -/
inductive Refusal where
  /-- Raised by an arm of `exec` whose command has no meaning yet. Safe. -/
  | notModelled (mnemonic : String)
  /-- Raised by EGCD when |x| or |y| is 2^W or more, for which the spec gives the unit no behaviour and asks a model to
  refuse (spec/42_egcd_modinv.md R142; spec/93_implementation_defined.md U14). Safe. Log entry 15. -/
  | egcdMagnitudeTooWide
  deriving DecidableEq, Repr

/-- What a step answers. -/
abbrev StepOutcome := Host.Outcome State Fault Refusal

namespace Status

/-- STATUS = 0 (R230). -/
def zero : Status :=
  { done := false, result := false, xneg := false, yneg := false, err := .none, lost := false }

end Status

namespace State

/-- The operand width W = 32 * NLIMB (R6). -/
def width (s : State) : Nat := 32 * s.nlimb

/-- The state after a hard reset of a unit with these parameters (R230). R0..R7 are 'unspecified' there: DESIGN CHOICE
0 (log entry 2, unsafe). -/
def resetWith (nlimb base : Nat) : State :=
  { nlimb := nlimb
    base := base
    regs := Vector.replicate 8 0
    seq := .idle
    ie := false
    cmdLast := 0x00000000#32
    status := Status.zero
    rounds := 10#8
    rstN := true
    port := none
    agenda := []
    freeCtr := 0 }

/-- The machine right after reset (R230), with the parameters of log entry 1. -/
def reset : State := resetWith Config.resetNlimb Config.resetBase

/-- STATUS.BUSY (R24, R29). -/
def busy (s : State) : Bool :=
  match s.seq with
  | .idle => false
  | .busy _ => true

end State

end Sys2Proof.Machine
end

