-- ==== Sys2Proof/Machine/Flags.lean ====
section
/-! DEFINITION. The control registers as words and as fields, and every computation of a flag
(spec/10_state.md R26–R32, spec/60_exceptions.md R201, R207). -/

namespace Sys2Proof.Machine

/-- One bit. -/
def bit (b : Bool) : BitVec 1 := BitVec.ofBool b

/-- The 4-bit code of STATUS.ERR (spec/60_exceptions.md R201). -/
def ErrCode.code : ErrCode → BitVec 4
  | .none => 0#4
  | .invalidArgument => 1#4
  | .noInverse => 2#4
  | .illegalCommand => 3#4

/-- PARAM (R26): REV [31:24], NREG [23:16], NLIMB [15:0]. -/
def State.paramWord (s : State) : Word := Config.rev ++ Config.nreg ++ BitVec.ofNat 16 s.nlimb

/-- CTRL (R27): IE [0]; SRST and the reserved bits read 0. -/
def State.ctrlWord (s : State) : Word := 0#31 ++ bit s.ie

/-- STATUS (R29): LOST [12], ERR [11:8], YNEG [4], XNEG [3], RESULT [2], DONE [1], BUSY [0]; reserved bits read 0. -/
def State.statusWord (s : State) : Word :=
  0#19 ++ bit s.status.lost ++ s.status.err.code ++ 0#3 ++ bit s.status.yneg ++ bit s.status.xneg ++
    bit s.status.result ++ bit s.status.done ++ bit s.busy

/-- CONFIG (R31): ROUNDS [7:0]; reserved bits read 0. -/
def State.configWord (s : State) : Word := 0#24 ++ s.rounds

/-- The interrupt line, a level (spec/60_exceptions.md R207). -/
def State.irq (s : State) : Bool := s.status.done && s.ie

/-- R28: acceptance clears DONE, ERR, RESULT, XNEG and YNEG, and leaves LOST. -/
def Status.atAcceptance (st : Status) : Status :=
  { st with done := false, err := .none, result := false, xneg := false, yneg := false }

/-- R24, R29: completion sets DONE. -/
def Status.setDone (st : Status) : Status := { st with done := true }

/-- R24, R200: a completion with an error writes ERR. -/
def Status.setErr (st : Status) (c : ErrCode) : Status := { st with err := c }

/-- R32: the completion of MRROUND or MRTEST writes RESULT. -/
def Status.setResult (st : Status) (b : Bool) : Status := { st with result := b }

/-- R32: the completion of EGCD writes XNEG and YNEG. -/
def Status.setSigns (st : Status) (x y : Bool) : Status := { st with xneg := x, yneg := y }

/-- R28, R59, R205: a dropped CMD or window write sets LOST. -/
def Status.setLost (st : Status) : Status := { st with lost := true }

/-- R30: a host write of `v` to STATUS clears DONE where `v[1]` is 1 and LOST where `v[12]` is 1. -/
def Status.hostWrite (st : Status) (v : Word) : Status :=
  { st with
    done := if v.getLsbD 1 then false else st.done
    lost := if v.getLsbD 12 then false else st.lost }

end Sys2Proof.Machine
end

