-- ==== Sys2Proof/Machine/Operands.lean ====
section
/-! DEFINITION. The operand registers: whole registers, their 32-bit limbs, and the sources and destinations of a
command (spec/10_state.md R20–R25, spec/20_memory.md R53). -/

namespace Sys2Proof.Machine

/-- `v[32*j+31 : 32*j]`, limb `j` of an operand register's value (R21, R53). -/
def limb (v j : Nat) : Word := BitVec.ofNat 32 (v / 2 ^ (32 * j))

/-- `v` with bits `[32*j+31 : 32*j]` replaced by `w` (R53). -/
def setLimb (v j : Nat) (w : Word) : Nat :=
  v % 2 ^ (32 * j) + w.toNat * 2 ^ (32 * j) + v / 2 ^ (32 * j + 32) * 2 ^ (32 * j + 32)

/-- `R[r]` (spec/00_scope.md R10). -/
def State.reg (s : State) (r : RegIdx) : Nat := s.regs[r.val]

/-- `R[r] <- v` (spec/00_scope.md R10). -/
def State.setReg (s : State) (r : RegIdx) (v : Nat) : State :=
  { s with regs := s.regs.set r.val v }

/-- Write a command's destination registers (R24). -/
def State.setRegs (s : State) : List (RegIdx × Nat) → State
  | [] => s
  | (r, v) :: rest => (s.setReg r v).setRegs rest

/-- The value of source register `r` that the command in flight computes from: the one latched at acceptance (R25). -/
def State.source (s : State) (r : RegIdx) : Nat :=
  match s.seq with
  | .busy h => h.src[r.val]
  | .idle => s.reg r

/-- The round count the command in flight computes from: CONFIG.ROUNDS at acceptance (R25, R31). -/
def State.sourceRounds (s : State) : Nat :=
  match s.seq with
  | .busy h => h.rounds.toNat
  | .idle => s.rounds.toNat

/-- The entropy responses the command in flight has received (R34; spec/43_miller_rabin.md R164). -/
def State.responses (s : State) : List Word :=
  match s.seq with
  | .busy h => h.responses
  | .idle => []

/-- A request to the entropy source is outstanding (R34). -/
def State.requested (s : State) : Bool :=
  match s.seq with
  | .busy h => h.requested
  | .idle => false

/-- The registers a command reads (R21). -/
def sources : Instr → List RegIdx
  | .modmul _ ra rb rm => [ra, rb, rm]
  | .modexp _ ra rb rm => [ra, rb, rm]
  | .egcd _ ra rb => [ra, rb]
  | .modinv _ ra rb => [ra, rb]
  | .mrround ra rb => [ra, rb]
  | .mrtest ra => [ra]

/-- The registers a command writes (R21). -/
def dests : Instr → List RegIdx
  | .modmul rd _ _ _ => [rd]
  | .modexp rd _ _ _ => [rd]
  | .egcd rd _ _ => [rd, rd + 1, rd + 2]
  | .modinv rd _ _ => [rd]
  | .mrround _ _ => []
  | .mrtest _ => []

/-- The destination registers of a command word: none where the word is illegal (spec/30_encoding.md R86). -/
def wordDests (v : Word) : List RegIdx :=
  match decodeWord v with
  | .ok i => dests i
  | .error _ => []

/-- A fresh unspecified operand value (R22): the next free value, below 2^W; the counter moves on (log entry 3). -/
def State.scramble (s : State) (r : RegIdx) : State :=
  { s.setReg r (Config.freeOperand s.freeCtr % 2 ^ s.width) with freeCtr := s.freeCtr + 1 }

/-- Make each of these registers unspecified (R22, R231). -/
def State.scrambleAll (s : State) : List RegIdx → State
  | [] => s
  | r :: rest => (s.scramble r).scrambleAll rest

/-- R0..R7. -/
def allRegs : List RegIdx := [0, 1, 2, 3, 4, 5, 6, 7]

end Sys2Proof.Machine
end

