-- ==== Sys2Proof/Machine/Ops.lean ====
section
/-! DEFINITION. The shared operations of the sequencer: acceptance, completion, raising an error, the request to the
entropy source, and the two resets (spec/10_state.md R24–R28, spec/60_exceptions.md R200–R204,
spec/70_reset_and_hazards.md R230, R231). -/

namespace Sys2Proof.Machine

/-- What a command's rule gives at completion (R24): an error code, or the destination writes and the flags the
command writes (R32); `none` is a flag the command leaves at the 0 that acceptance wrote. -/
inductive Outcome where
  | error (code : ErrCode)
  | results (writes : List (RegIdx × Nat)) (result : Option Bool) (signs : Option (Bool × Bool))
  deriving DecidableEq, Repr

/-- Acceptance of the command word `v` (R28): latch the word, the source registers and CONFIG.ROUNDS (R25), without
decoding; BUSY is 1 from here. The model latches all eight registers (log entry 7). -/
def State.accept (s : State) (v : Word) : State :=
  { s with
    cmdLast := v
    seq := .busy { word := v, src := s.regs, rounds := s.rounds, requested := false, responses := [] }
    status := s.status.atAcceptance }

/-- The end of every completion (R24): BUSY <- 0 and DONE <- 1. -/
def State.finish (s : State) : State :=
  { s with seq := .idle, status := s.status.setDone }

/-- `raise Error(code)` (R200): ERR <- code, no operand register written, the flags left, BUSY <- 0, DONE <- 1. This is
the unit's whole error entry: nothing is saved, no mode changes and nothing is redirected (R210). -/
def State.raiseError (s : State) (code : ErrCode) : State :=
  { s with status := s.status.setErr code }.finish

/-- Write the flags a command writes (R32). -/
def State.writeFlags (s : State) (result : Option Bool) (signs : Option (Bool × Bool)) : State :=
  { s with
    status :=
      let st := match result with
        | some b => s.status.setResult b
        | none => s.status
      match signs with
        | some (x, y) => st.setSigns x y
        | none => st }

/-- Completion, one atomic step (R24). -/
def State.complete (s : State) : Outcome → State
  | .error code => s.raiseError code
  | .results writes result signs => ((s.setRegs writes).writeFlags result signs).finish

/-- The state in which command `i` runs: `s` itself while the sequencer holds a command, and `s` after the acceptance of
`i`'s word where it is IDLE (log entry 8). -/
def State.start (s : State) (i : Instr) : State :=
  match s.seq with
  | .busy _ => s
  | .idle => s.accept (encode i)

/-- The command in flight waits for the entropy source (spec/43_miller_rabin.md R164): a request is outstanding and BUSY
stays 1. -/
def State.requestEntropy (s : State) : State :=
  match s.seq with
  | .busy h => { s with seq := .busy { h with requested := true } }
  | .idle => s

/-- The entropy source answers (spec/20_memory.md R52, spec/43_miller_rabin.md R164): 32 bits for the outstanding
request. A response nobody requested is no answer and changes nothing (log entry 9). -/
def State.entropyResponse (s : State) (w : Word) : State :=
  match s.seq with
  | .busy h =>
    if h.requested then
      { s with seq := .busy { h with requested := false, responses := h.responses ++ [w] } }
    else s
  | .idle => s

/-- The control registers at their reset values and the sequencer IDLE (R230, R231). -/
def State.clearControl (s : State) : State :=
  { s with seq := .idle, ie := false, cmdLast := 0x00000000#32, status := Status.zero, rounds := 10#8 }

/-- Soft reset (R231): a command in flight is discarded with its entropy request, and its destination registers become
unspecified; the other operand registers are kept. -/
def State.softReset (s : State) : State :=
  match s.seq with
  | .busy h => (s.scrambleAll (wordDests h.word)).clearControl
  | .idle => s.clearControl

/-- Hard reset (R230): the control registers at their reset values, every operand register unspecified (R22). -/
def State.hardReset (s : State) : State := (s.scrambleAll allRegs).clearControl

/-- The reset pin is driven to `level` (R52, R230). While it is low the port answers nothing; when it is released the
unit is in the state of R230 (log entry 14). -/
def State.driveReset (s : State) (level : Bool) : State :=
  if level && s.rstN then s
  else { s.hardReset with rstN := level, port := none }

/-- The unit with the word `v` just accepted and the sequencer's step next: what `withFetchWord` places (log entry 6). -/
def State.placeCommand (s : State) (v : Word) : State :=
  let idle := { s with seq := .idle, rstN := true }
  { idle.accept v with agenda := match s.agenda with
                                 | [] => []
                                 | rest => .sequencer :: rest }

end Sys2Proof.Machine
end

