-- ==== Sys2Proof/Machine/Egcd.lean ====
section
/-! DEFINITION. The extended-gcd unit (spec/42_egcd_modinv.md). -/

namespace Sys2Proof.Machine

/-- The accumulators of R140's loop. The remainders are never negative; the coefficients are signed. -/
structure EuclidState where
  oldR : Nat
  r : Nat
  oldS : Int
  s : Int
  oldT : Int
  t : Int
  deriving DecidableEq, Repr

/-- One pass of R140's loop. `q * r ≤ oldR`, so the Nat difference is R140's. -/
def euclidPass (e : EuclidState) : EuclidState :=
  let q := e.oldR / e.r
  { oldR := e.r
    r := e.oldR - q * e.r
    oldS := e.s
    s := e.oldS - q * e.s
    oldT := e.t
    t := e.oldT - q * e.t }

/-- R140's `while r != 0`; the fuel bounds the passes. -/
def euclidLoop : Nat → EuclidState → EuclidState
  | 0, e => e
  | fuel + 1, e => if e.r = 0 then e else euclidLoop fuel (euclidPass e)

/-- R140's start values. -/
def euclidStart (a b : Nat) : EuclidState :=
  { oldR := a, r := b, oldS := 1, s := 0, oldT := 0, t := 1 }

/-- R140: (x, y, g). Each pass makes `r` strictly smaller, so `b` passes end the loop. -/
def extGcd (a b : Nat) : Int × Int × Nat :=
  let e := euclidLoop b (euclidStart a b)
  (e.oldS, e.oldT, e.oldR)

/-- R143: `none` is NoInverse. -/
def modInv (phi e : Nat) : Option Nat :=
  match extGcd e phi with
  | (x, _, g) => if g ≠ 1 then none else some (x % (phi : Int)).toNat

/-- A coefficient's magnitude fits an operand register of `w` bits (R142). -/
def fits (w : Nat) (x : Int) : Bool := decide (x.natAbs < 2 ^ w)

/-- R141's rule over the latched operands, for registers of `w` bits. `none`: a magnitude does not fit, for which R142
gives no behaviour (log entry 15). RD = 6 or 7 makes the word illegal (spec/30_encoding.md R85; log entry 18). -/
def egcdOutcome (w : Nat) (rd : RegIdx) (a b : Nat) : Option Outcome :=
  if 5 < rd then some (.error .illegalCommand)
  else if a = 0 ∧ b = 0 then some (.error .invalidArgument)
  else
    match extGcd a b with
    | (x, y, g) =>
      if fits w x && fits w y then
        some (.results [(rd, x.natAbs), (rd + 1, y.natAbs), (rd + 2, g)] none
          (some (decide (x < 0), decide (y < 0))))
      else none

/-- EGCD (R141, R142). -/
def execEgcd (rd ra rb : RegIdx) (s : State) : StepOutcome :=
  let t := s.start (.egcd rd ra rb)
  match egcdOutcome t.width rd (t.source ra) (t.source rb) with
  | some o => .next (t.complete o)
  | none => .refused .egcdMagnitudeTooWide

/-- R144's rule over the latched operands. -/
def modinvOutcome (rd : RegIdx) (phi e : Nat) : Outcome :=
  if phi = 0 then .error .invalidArgument
  else
    match modInv phi e with
    | none => .error .noInverse
    | some d => .results [(rd, d)] none none

/-- MODINV (R144). -/
def execModinv (rd ra rb : RegIdx) (s : State) : StepOutcome :=
  let t := s.start (.modinv rd ra rb)
  .next (t.complete (modinvOutcome rd (t.source ra) (t.source rb)))

end Sys2Proof.Machine
end

