-- ==== Sys2Proof/Machine/ModMul.lean ====
section
/-! DEFINITION. The modular multiplier (spec/40_modmul.md). -/

namespace Sys2Proof.Machine

/-- R101: the exact integer product, then the mod of spec/00_scope.md R9. -/
def mulMod (a b m : Nat) : Nat := a * b % m

/-- R100's rule over the latched operands. -/
def modmulOutcome (rd : RegIdx) (a b m : Nat) : Outcome :=
  if m = 0 then .error .invalidArgument
  else .results [(rd, mulMod a b m)] none none

/-- MODMUL (R100, R102). -/
def execModmul (rd ra rb rm : RegIdx) (s : State) : StepOutcome :=
  let t := s.start (.modmul rd ra rb rm)
  .next (t.complete (modmulOutcome rd (t.source ra) (t.source rb) (t.source rm)))

end Sys2Proof.Machine
end

