-- ==== Sys2Proof/Machine/ModExp.lean ====
section
/-! DEFINITION. The modular exponentiation engine (spec/41_modexp.md). -/

namespace Sys2Proof.Machine

/-- `bitlen` (spec/00_scope.md R9). -/
def bitlen (v : Nat) : Nat := if v = 0 then 0 else Nat.log2 v + 1

/-- The variables of R121's loop, and how often it has invoked the multiplier (R122). -/
structure PowState where
  result : Nat
  b : Nat
  e : Nat
  calls : Nat
  deriving DecidableEq, Repr

/-- One pass of R121's loop: accumulate where the lowest exponent bit is set, square, halve. -/
def powPass (m : Nat) (p : PowState) : PowState :=
  let q := if p.e % 2 = 1 then { p with result := mulMod p.result p.b m, calls := p.calls + 1 } else p
  { q with b := mulMod q.b q.b m, e := q.e / 2, calls := q.calls + 1 }

/-- R121's `while e > 0`; the fuel bounds the passes. -/
def powLoop (m : Nat) : Nat → PowState → PowState
  | 0, p => p
  | fuel + 1, p => if p.e = 0 then p else powLoop m fuel (powPass m p)

/-- The run of R121's loop on reduced `base`; `bitlen e` passes empty the exponent. -/
def powRun (base e m : Nat) : PowState :=
  powLoop m (bitlen e) { result := 1, b := base % m, e := e, calls := 0 }

/-- R121. -/
def powMod (base e m : Nat) : Nat := if m = 1 then 0 else (powRun base e m).result

/-- How often MODEXP invokes the multiplier (R122): timing only, no rule depends on it. With m = 1 the result is
returned before the loop, and m = 0 is an error before it. -/
def powModCalls (base e m : Nat) : Nat := if m ≤ 1 then 0 else (powRun base e m).calls

/-- R120's rule over the latched operands. -/
def modexpOutcome (rd : RegIdx) (base e m : Nat) : Outcome :=
  if m = 0 then .error .invalidArgument
  else .results [(rd, powMod base e m)] none none

/-- MODEXP (R120). -/
def execModexp (rd ra rb rm : RegIdx) (s : State) : StepOutcome :=
  let t := s.start (.modexp rd ra rb rm)
  .next (t.complete (modexpOutcome rd (t.source ra) (t.source rb) (t.source rm)))

end Sys2Proof.Machine
end

