-- ==== Sys2Proof/Machine/MillerRabin.lean ====
section
/-! DEFINITION. The Miller–Rabin primality pipeline (spec/43_miller_rabin.md). -/

namespace Sys2Proof.Machine

/-- The small-prime table, in order (R160). -/
def smallPrimes : List Nat := [2, 3, 5, 7, 11, 13, 17, 19, 23, 29]

/-- The pre-filter's outcomes (R160). -/
inductive PrefilterResult where
  | composite
  | probablyPrime
  | proceed
  deriving DecidableEq, Repr

/-- R160's loop over the table. -/
def trialDivide (n : Nat) : List Nat → PrefilterResult
  | [] => .proceed
  | p :: ps =>
    if n = p then .probablyPrime
    else if n % p = 0 then .composite
    else trialDivide n ps

/-- R160, with spec/90_conflicts.md C1 and C2; `proceed` is its Continue. -/
def prefilter (n : Nat) : PrefilterResult :=
  if n < 2 then .composite
  else if n = 2 ∨ n = 3 then .probablyPrime
  else if n % 2 = 0 then .composite
  else trialDivide n smallPrimes

/-- R161's loop: halve `m` while it is even, counting; the fuel bounds the passes. -/
def halveLoop : Nat → Nat → Nat → Nat × Nat
  | 0, k, m => (k, m)
  | fuel + 1, k, m => if m % 2 = 0 then halveLoop fuel (k + 1) (m / 2) else (k, m)

/-- R161: (k, m) with `n - 1 = 2^k * m`, m odd. -/
def decompose (n : Nat) : Nat × Nat := halveLoop (bitlen (n - 1)) 0 (n - 1)

/-- R162's loop: square `x` up to `k` more times; pass when it is `n - 1`. -/
def squareLoop (n : Nat) : Nat → Nat → Bool
  | 0, _ => false
  | k + 1, x =>
    let y := mulMod x x n
    if y = n - 1 then true else squareLoop n k y

/-- R162: one round with witness `a`; true is Pass. -/
def mrRoundPass (n a : Nat) : Bool :=
  match decompose n with
  | (k, m) =>
    let x := powMod a m n
    if x = 1 ∨ x = n - 1 then true else squareLoop n (k - 1) x

/-- R163's rule over the latched operands. -/
def mrroundOutcome (n a : Nat) : Outcome :=
  if n < 5 ∨ n % 2 = 0 then .error .invalidArgument
  else if a < 2 ∨ n - 2 < a then .error .invalidArgument
  else .results [] (some (mrRoundPass n a)) none

/-- MRROUND (R163). -/
def execMrround (ra rb : RegIdx) (s : State) : StepOutcome :=
  let t := s.start (.mrround ra rb)
  .next (t.complete (mrroundOutcome (t.source ra) (t.source rb)))

/-- The concatenation of entropy responses, the first in the low bits (R164). -/
def concatResponses : List Word → Nat
  | [] => 0
  | w :: ws => w.toNat + 2 ^ 32 * concatResponses ws

/-- R164's L: `bitlen(S - 1)` with `S = n - 3`. -/
def samplerBits (n : Nat) : Nat := bitlen (n - 3 - 1)

/-- R164's `ceil(L / 32)`: how many entropy responses one pass of the sampler takes. -/
def samplerWords (n : Nat) : Nat := (samplerBits n + 31) / 32

/-- R164's `draw_witness(2, n - 2)` over the responses received: the witness and the responses left, or `none` while more
responses are needed. The fuel bounds the passes. -/
def drawLoop (n : Nat) : Nat → List Word → Option (Nat × List Word)
  | 0, _ => none
  | fuel + 1, rs =>
    if rs.length < samplerWords n then none
    else
      let t := concatResponses (rs.take (samplerWords n)) % 2 ^ samplerBits n
      if t < n - 3 then some (2 + t, rs.drop (samplerWords n))
      else drawLoop n fuel (rs.drop (samplerWords n))

/-- R164. Each pass takes a response, so one pass more than there are responses is never made. -/
def drawWitness (n : Nat) (rs : List Word) : Option (Nat × List Word) := drawLoop n (rs.length + 1) rs

/-- Where the test stands after the responses received so far. -/
inductive TestResult where
  | composite
  | probablyPrime
  | needsEntropy
  deriving DecidableEq, Repr

/-- R165's loop over the rounds. -/
def testRounds (n : Nat) : Nat → List Word → TestResult
  | 0, _ => .probablyPrime
  | k + 1, rs =>
    match drawWitness n rs with
    | none => .needsEntropy
    | some (a, rest) => if mrRoundPass n a then testRounds n k rest else .composite

/-- R165, R166: `is_probably_prime(n, rounds)` over the entropy responses received so far. -/
def mrTest (n rounds : Nat) (rs : List Word) : TestResult :=
  match prefilter n with
  | .composite => .composite
  | .probablyPrime => .probablyPrime
  | .proceed => testRounds n rounds rs

/-- What a finished test writes (R165); `none` while the test needs entropy. -/
def mrtestOutcome : TestResult → Option Outcome
  | .composite => some (.results [] (some false) none)
  | .probablyPrime => some (.results [] (some true) none)
  | .needsEntropy => none

/-- MRTEST (R165): it completes when the responses received decide the test, and otherwise waits with a request to the
entropy source outstanding, BUSY staying 1 (R164; log entry 9). -/
def execMrtest (ra : RegIdx) (s : State) : StepOutcome :=
  let t := s.start (.mrtest ra)
  match mrtestOutcome (mrTest (t.source ra) t.sourceRounds t.responses) with
  | some o => .next (t.complete o)
  | none => .next t.requestEntropy

end Sys2Proof.Machine
end

