-- ==== Sys2Proof/Machine/HostPort.lean ====
section
/-! DEFINITION. The host port: the register map, legal accesses, the read and write rule of every register
(spec/20_memory.md R50–R59, spec/10_state.md R26–R31). -/

namespace Sys2Proof.Machine

/-- What stands at a word offset of the region (R51, R53, R56). -/
inductive Loc where
  | param
  | ctrl
  | cmd
  | status
  | config
  /-- the operand window: limb slot `j` of operand register `i`; a slot `j ≥ NLIMB` holds no register -/
  | limb (i : RegIdx) (j : Nat)
  | reserved
  deriving DecidableEq, Repr

/-- The size of the region in bytes (R50). -/
def regionSize : Nat := 0x4000

/-- The register map (R51, R53). -/
def locate (off : Nat) : Loc :=
  if off = 0x0000 then .param
  else if off = 0x0004 then .ctrl
  else if off = 0x0008 then .cmd
  else if off = 0x000C then .status
  else if off = 0x0010 then .config
  else if 0x1000 ≤ off ∧ off < 0x3000 then
    .limb (Fin.ofNat 8 ((off - 0x1000) / 0x400)) ((off - 0x1000) % 0x400 / 4)
  else .reserved

/-- The offset of limb slot `j` of operand register `i` (R53). -/
def limbOffset (i : RegIdx) (j : Nat) : Nat := 0x1000 + 0x400 * i.val + 4 * j

/-- An address of the region (R50). -/
def State.inRegion (s : State) (addr : Nat) : Bool :=
  decide (s.base ≤ addr) && decide (addr < s.base + regionSize)

/-- The only legal host access: 32 bits, all four byte lanes, an offset that is a multiple of 4 (R55). -/
def legalAccess (a : Access) (off : Nat) : Bool :=
  decide (a.size = 4) && decide (a.bytemask = 0b1111#4) && decide (off % 4 = 0)

/-- What a legal read returns (R26–R29, R31, R53, R56). While BUSY a read of the operand window, of every limb slot of
it, returns any value: the next free word (R59; log entries 4 and 20). -/
def State.readValue (s : State) : Loc → Word
  | .param => s.paramWord
  | .ctrl => s.ctrlWord
  | .cmd => s.cmdLast
  | .status => s.statusWord
  | .config => s.configWord
  | .limb i j =>
    if s.busy then Config.freeWord s.freeCtr
    else if j < s.nlimb then limb (s.reg i) j
    else 0
  | .reserved => 0

/-- A read has no side effect (R58); a drawn free value moves the model's own counter. -/
def State.afterRead (s : State) : Loc → State
  | .limb _ _ => if s.busy then { s with freeCtr := s.freeCtr + 1 } else s
  | _ => s

/-- A write to CTRL (R27): a soft reset if `v[1]` is 1, which leaves IE = 0; else IE <- `v[0]`. -/
def State.writeCtrl (s : State) (v : Word) : State :=
  if v.getLsbD 1 then s.softReset else { s with ie := v.getLsbD 0 }

/-- A write to CMD (R28): a command, or a dropped word that sets LOST while BUSY. -/
def State.writeCmd (s : State) (v : Word) : State :=
  if s.busy then { s with status := s.status.setLost } else s.accept v

/-- A write to STATUS (R30). -/
def State.writeStatus (s : State) (v : Word) : State := { s with status := s.status.hostWrite v }

/-- A write to CONFIG (R31). -/
def State.writeConfig (s : State) (v : Word) : State := { s with rounds := v.extractLsb' 0 8 }

/-- A write to the operand window (R53, R56, R59). -/
def State.writeLimb (s : State) (i : RegIdx) (j : Nat) (v : Word) : State :=
  if s.busy then { s with status := s.status.setLost }
  else if j < s.nlimb then s.setReg i (setLimb (s.reg i) j v)
  else s

/-- The write rule of the register at an offset (R51). -/
def State.writeLoc (s : State) (v : Word) : Loc → State
  | .param => s
  | .ctrl => s.writeCtrl v
  | .cmd => s.writeCmd v
  | .status => s.writeStatus v
  | .config => s.writeConfig v
  | .limb i j => s.writeLimb i j v
  | .reserved => s

/-- The port's answer is put on the wires (R52). -/
def State.answer (s : State) (a : Access) (r : Response) : State :=
  { s with port := some { access := a, response := r } }

/-- The read data of an answer: 0 with an ERROR; a write has none (R55; log entry 12). -/
def readData : Response → Option Word
  | .okayRead w => some w
  | .okayWrite => none
  | .error => some 0#32

/-- The effect of a transaction at an address of the region (R55). A narrow or misaligned access gets a bus ERROR and
changes nothing (R206; log entry 10). -/
def State.regionAccess (s : State) (a : Access) : State :=
  let off := a.addr - s.base
  if legalAccess a off then
    if a.write then (s.writeLoc a.wdata (locate off)).answer a .okayWrite
    else (s.afterRead (locate off)).answer a (.okayRead (s.readValue (locate off)))
  else s.answer a .error

/-- A transaction at the host port. An address outside the region is no access to the unit (R50; log entry 11). -/
def State.hostAccess (s : State) (a : Access) : StepOutcome :=
  if s.inRegion a.addr then .next (s.regionAccess a) else .fault (.outsideRegion a.addr)

/-- Byte lane `off mod 4` of the word at a byte offset of the region, as a legal read returns it (R54). -/
def State.readByte (s : State) (off : Nat) : Byte :=
  byteLane (s.readValue (locate (off - off % 4))) (off % 4)

/-- `MemRead(BASE + off, 4)` as a transaction (spec/00_scope.md R10, R55). -/
def State.memRead (s : State) (off : Nat) : Access :=
  { addr := s.base + off, write := false, wdata := 0, size := 4, bytemask := 0b1111#4 }

/-- `MemWrite(BASE + off, 4, v)` as a transaction (spec/00_scope.md R10, R55). -/
def State.memWrite (s : State) (off : Nat) (v : Word) : Access :=
  { addr := s.base + off, write := true, wdata := v, size := 4, bytemask := 0b1111#4 }

/-- The writes whose place beside a completion in the same cycle R209 pins, host first: a soft reset, a write of 1 to
STATUS.DONE, a CMD write. -/
def State.hostWins (s : State) (a : Access) : Bool :=
  let off := a.addr - s.base
  s.inRegion a.addr && legalAccess a off && a.write &&
    match locate off with
    | .ctrl => a.wdata.getLsbD 1
    | .status => a.wdata.getLsbD 1
    | .cmd => true
    | _ => false

end Sys2Proof.Machine
end

