-- ==== Sys2Proof/Machine/Sequencer.lean ====
section
/-! DEFINITION. The agents' steps (spec/00_scope.md R5, spec/10_state.md R24, spec/20_memory.md R61,
spec/60_exceptions.md R209, spec/70_reset_and_hazards.md R230). -/

namespace Sys2Proof.Machine

/-- The completion of the command word `v` (R24): the legality check first (R203), then the command's rule. -/
def runWord (v : Word) (s : State) : StepOutcome :=
  match decodeWord v with
  | .ok i => exec i s
  | .error _ => .next (s.raiseError .illegalCommand)

/-- The sequencer's step: while BUSY, the held command; when IDLE, nothing (R216). -/
def sequencerStep (s : State) : StepOutcome :=
  match s.seq with
  | .idle => .next s
  | .busy h => runWord h.word s

/-- One step, then another. -/
def andThen (o : StepOutcome) (f : State → StepOutcome) : StepOutcome :=
  match o with
  | .next s => f s
  | .fault r => .fault r
  | .refused r => .refused r

/-- A transaction and the sequencer's step in one clock cycle (R209): the host first where R209 pins it; else in the order
the event says. The sequencer has a step only for a command held before the cycle (log entry 13). -/
def sameCycleStep (s : State) (a : Access) (sequencerFirst : Bool) : StepOutcome :=
  if s.busy then
    if s.hostWins a then andThen (s.hostAccess a) sequencerStep
    else if sequencerFirst then andThen (sequencerStep s) (fun t => t.hostAccess a)
    else andThen (s.hostAccess a) sequencerStep
  else s.hostAccess a

/-- What an event does while `rst_n` is high. -/
def eventStep (s : State) : Event → StepOutcome
  | .sequencer => sequencerStep s
  | .host a => s.hostAccess a
  | .entropy w => .next (s.entropyResponse w)
  | .resetPin level => .next (s.driveReset level)
  | .sameCycle a sequencerFirst => sameCycleStep s a sequencerFirst

/-- What an event does while `rst_n` is low (R230): the port answers no access and no agent moves; only the pin can
change. -/
def resetStep (s : State) : Event → StepOutcome
  | .resetPin level => .next (s.driveReset level)
  | .sequencer => .next s
  | .entropy _ => .next s
  | .host _ => .next { s with port := none }
  | .sameCycle _ _ => .next { s with port := none }

/-- One step of whatever the agenda names next (log entry 5). With nothing on it, the sequencer moves if it can. -/
def agendaStep (s : State) : StepOutcome :=
  match s.agenda with
  | [] => if s.rstN then sequencerStep s else .next s
  | e :: rest =>
    if s.rstN then eventStep { s with agenda := rest } e
    else resetStep { s with agenda := rest } e

end Sys2Proof.Machine
end

