-- ==== Sys2Proof/Machine/Step.lean ====
section
/-! DEFINITION. The machine's one step, and how a command word is placed for it. -/

namespace Sys2Proof.Machine

/-- One atomic step of one agent (spec/20_memory.md R61). -/
def step (s : State) : Host.Outcome State Fault Refusal := agendaStep s

/-- `s` with the command word `w` accepted and its completion next: the unit fetches nothing (spec/10_state.md R23), and
a command comes from a CMD write, which this stands for (log entry 6). -/
def State.withFetchWord (s : State) (nbits w : Nat) : State :=
  s.placeCommand (BitVec.ofNat 32 (w % 2 ^ nbits))

end Sys2Proof.Machine
end

