-- ==== Sys2Proof/Safety.lean ====
section
/-! DEFINITION. What a sound state of the unit is, and the terms the statements use (spec/10_state.md,
spec/60_exceptions.md, spec/70_reset_and_hazards.md R241). -/

namespace Sys2Proof.Machine

/-- The sequencer holds command `i` (spec/10_state.md R24). -/
def State.holds (s : State) (i : Instr) : Prop :=
  ∃ h, s.seq = .busy h ∧ decodeWord h.word = .ok i

/-- What the spec says of a held command (spec/10_state.md R25, R28, R29, R34, spec/20_memory.md R59): CMD reads back its
word; the operand registers still hold the latched values; the flags and ERR read 0 and DONE is 0; only an MRTEST talks
to the entropy source; a unit in hard reset holds none. -/
structure HeldInv (s : State) (h : Held) : Prop where
  word_eq : h.word = s.cmdLast
  src_eq : h.src = s.regs
  done_clear : s.status.done = false
  err_clear : s.status.err = .none
  result_clear : s.status.result = false
  xneg_clear : s.status.xneg = false
  yneg_clear : s.status.yneg = false
  entropy_only_mrtest : h.requested = true ∨ h.responses ≠ [] → ∃ ra, decodeWord h.word = .ok (.mrtest ra)
  not_in_reset : s.rstN = true

/-- The state while `rst_n` is low (spec/70_reset_and_hazards.md R230; log entry 14). -/
structure InResetInv (s : State) : Prop where
  idle : s.seq = .idle
  ie_clear : s.ie = false
  cmd_clear : s.cmdLast = 0x00000000#32
  status_clear : s.status = Status.zero
  rounds_default : s.rounds = 10#8
  port_silent : s.port = none

/-- The unit's invariant. -/
structure State.Inv (s : State) : Prop where
  /-- NLIMB's legal values (R6) -/
  nlimb_pos : 1 ≤ s.nlimb
  nlimb_le : s.nlimb ≤ 256
  /-- BASE's legal values (R6) -/
  base_aligned : s.base % 0x4000 = 0
  /-- every operand register holds an integer in [0, 2^W) (R21) -/
  regs_lt : ∀ r : RegIdx, s.reg r < 2 ^ s.width
  /-- a held command -/
  held : ∀ h, s.seq = .busy h → HeldInv s h
  /-- a command that ended in an error left the flags at 0 (R32, R200) -/
  err_flags : s.status.err ≠ .none → s.status.result = false ∧ s.status.xneg = false ∧ s.status.yneg = false
  /-- RESULT and the sign flags are written by different commands (R32) -/
  result_signs : s.status.result = true → s.status.xneg = false ∧ s.status.yneg = false
  /-- hard reset -/
  in_reset : s.rstN = false → InResetInv s

/-- The operands the command finds outside its domain (spec/60_exceptions.md R201, code 1), over the latched values. -/
def badArgument (s : State) : Instr → Prop
  | .modmul _ _ _ rm => s.source rm = 0
  | .modexp _ _ _ rm => s.source rm = 0
  | .egcd _ ra rb => s.source ra = 0 ∧ s.source rb = 0
  | .modinv _ ra _ => s.source ra = 0
  | .mrround ra rb =>
    s.source ra < 5 ∨ s.source ra % 2 = 0 ∨ s.source rb < 2 ∨ s.source ra - 2 < s.source rb
  | .mrtest _ => False

/-- The operands have no inverse (spec/60_exceptions.md R201, code 2; spec/42_egcd_modinv.md R144). -/
def noInverseOperands (s : State) : Instr → Prop
  | .modinv _ ra rb => s.source ra ≠ 0 ∧ Nat.gcd (s.source rb) (s.source ra) ≠ 1
  | _ => False

/-- The first `k` witnesses the sampler draws from the responses, in order, and the responses left; `none` while there are
too few responses (spec/43_miller_rabin.md R164, R165). -/
def drawWitnesses (n : Nat) : Nat → List Word → Option (List Nat × List Word)
  | 0, rs => some ([], rs)
  | k + 1, rs =>
    match drawWitness n rs with
    | none => none
    | some (a, rest) =>
      match drawWitnesses n k rest with
      | none => none
      | some (as, rest') => some (a :: as, rest')

/-- How many bits of `e` are 1 (spec/41_modexp.md R122). -/
def popcount (e : Nat) : Nat := (List.range (bitlen e)).countP (fun k => e.testBit k)

/-- The last transaction answered at the port is a STATUS read that returned BUSY = 0 (spec/20_memory.md R62,
spec/70_reset_and_hazards.md R236). -/
def State.observedIdle (s : State) : Prop :=
  ∃ a w, s.port = some ⟨a, .okayRead w⟩ ∧ a.addr = s.base + 0xC ∧ w.getLsbD 0 = false

/-- A finished run (spec/70_reset_and_hazards.md R241): the host has nothing more to issue, and its last access was a STATUS
read returning BUSY = 0. -/
def State.runEnded (s : State) : Prop := s.agenda = [] ∧ s.observedIdle

end Sys2Proof.Machine
end

