-- ==== Sys2Proof/Certificates/Slice0/Obligations.lean ====
section
/-! DEFINITION. The statements about the unit, one definition each; OBLIGATIONS.json says what each states in words. -/

open Sys2Proof Sys2Proof.Machine

/-! ### Encoding -/

/-- spec/30_encoding.md R81–R85: decoding the word of a well-formed command gives the command back, for every value of
every field. -/
def Obligations.DecodeOfEncode : Prop :=
  ∀ i : Instr, i.wf = true → decodeWord (encode i) = .ok i

/-- spec/30_encoding.md R81, R84: a word that decodes is the one word of the command it decodes to, and that command is
well formed. -/
def Obligations.EncodeOfDecode : Prop :=
  ∀ (v : Word) (i : Instr), decodeWord v = .ok i → encode i = v ∧ i.wf = true

/-- spec/30_encoding.md R86, whole: which words are legal, in fields and in table rows, and what an illegal one does. -/
def Obligations.LegalWordsAndIllegalCompletion : Prop :=
  (∀ v : Word, legal v = true ↔
    v.extractLsb' 16 16 = 0#16 ∧
    (v.extractLsb' 0 4 = 0x1#4 ∨ v.extractLsb' 0 4 = 0x2#4 ∨
      (v.extractLsb' 0 4 = 0x3#4 ∧ v.extractLsb' 13 3 = 0#3 ∧ (v.extractLsb' 4 3).toNat ≤ 5) ∨
      (v.extractLsb' 0 4 = 0x4#4 ∧ v.extractLsb' 13 3 = 0#3) ∨
      (v.extractLsb' 0 4 = 0x5#4 ∧ v.extractLsb' 4 3 = 0#3 ∧ v.extractLsb' 13 3 = 0#3) ∨
      (v.extractLsb' 0 4 = 0x6#4 ∧ v.extractLsb' 4 3 = 0#3 ∧ v.extractLsb' 10 3 = 0#3 ∧
        v.extractLsb' 13 3 = 0#3))) ∧
  (∀ v : Word, legal v = opcodeTable.any (fun r => r.takes v)) ∧
  (∀ v : Word, legal v = true ↔ ∃ i, decodeWord v = .ok i) ∧
  (∀ (s : State) (v : Word), s.busy = false → s.writeCmd v = s.accept v) ∧
  (∀ (s : State) (h : Held), s.seq = .busy h → legal h.word = false →
    sequencerStep s =
      .next { s with seq := .idle, status := { s.status with err := .illegalCommand, done := true } })

/-- spec/opcode_table.json: no word is taken by two rows. -/
def Obligations.OpcodeRowsDoNotOverlap : Prop :=
  ∀ v : Word, (opcodeTable.filter (fun r => r.takes v)).length ≤ 1

/-- spec/30_encoding.md R90 and spec/95_test_vectors.md: written-out words decode to their commands. -/
def Obligations.SampleWordsDecode : Prop :=
  decodeWord 0b0000000000000000_000_010_001_011_0001#32 = .ok (.modmul 3 1 2 0) ∧
  decodeWord 0b0000000000000000_011_001_100_101_0010#32 = .ok (.modexp 5 4 1 3) ∧
  decodeWord 0b0000000000000000_000_001_000_011_0011#32 = .ok (.egcd 3 0 1) ∧
  decodeWord 0b0000000000000000_000_001_000_010_0100#32 = .ok (.modinv 2 0 1) ∧
  decodeWord 0b0000000000000000_000_010_001_000_0101#32 = .ok (.mrround 1 2) ∧
  decodeWord 0b0000000000000000_000_000_001_000_0110#32 = .ok (.mrtest 1)

/-! ### The step -/

/-- spec/10_state.md R23, R24: at the sequencer's turn the step is the held command's meaning, at the state with the event
taken off the agenda; and a placed word is run by the very next step. The agenda and the placing are the model's own
(log entries 5, 6). -/
def Obligations.StepRunsTheHeldCommand : Prop :=
  (∀ (s : State) (i : Instr), s.rstN = true → s.holds i → s.agenda = [] → step s = exec i s) ∧
  (∀ (s : State) (i : Instr) (rest : List Event), s.rstN = true → s.holds i →
    s.agenda = .sequencer :: rest → step s = exec i { s with agenda := rest }) ∧
  (∀ (s : State) (w : Nat) (i : Instr), decodeTableWord 32 w = some i →
    step (s.withFetchWord 32 w) =
      exec i { s with
        rstN := true
        cmdLast := BitVec.ofNat 32 w
        seq := .busy
          { word := BitVec.ofNat 32 w, src := s.regs, rounds := s.rounds, requested := false, responses := [] }
        status := s.status.atAcceptance })

/-- spec/00_scope.md R5, spec/20_memory.md R61, spec/60_exceptions.md R203, R209: with `rst_n` high, the step does what the
event at the head of the agenda says, for each kind of event, and nothing else; at the sequencer's turn that is the
sequencer's step in every state, and a held illegal word completes with its error. The agenda is the model's own (log
entry 5). -/
def Obligations.StepPerformsTheNextEvent : Prop :=
  ∀ (s : State) (rest : List Event), s.rstN = true →
    (∀ a, s.agenda = .host a :: rest → step s = { s with agenda := rest }.hostAccess a) ∧
    (∀ w, s.agenda = .entropy w :: rest → step s = .next ({ s with agenda := rest }.entropyResponse w)) ∧
    (∀ l, s.agenda = .resetPin l :: rest → step s = .next ({ s with agenda := rest }.driveReset l)) ∧
    (∀ a first, s.agenda = .sameCycle a first :: rest →
      step s = sameCycleStep { s with agenda := rest } a first) ∧
    (s.agenda = .sequencer :: rest → step s = sequencerStep { s with agenda := rest }) ∧
    (s.agenda = .sequencer :: rest → s.seq = .idle → step s = .next { s with agenda := rest }) ∧
    (∀ h, s.agenda = .sequencer :: rest → s.seq = .busy h → legal h.word = false →
      step s =
        .next { s with
          agenda := rest
          seq := .idle
          status := { s.status with err := .illegalCommand, done := true } }) ∧
    (s.agenda = [] → step s = sequencerStep s) ∧
    (s.agenda = [] → s.seq = .idle → step s = .next s)

/-- spec/10_state.md R28: where the sequencer is IDLE, running a command is accepting its word and then completing it
(the model's choice, log entry 8). -/
def Obligations.IdleExecAcceptsFirst : Prop :=
  ∀ (i : Instr) (s : State), s.seq = .idle → exec i s = exec i (s.accept (encode i))

/-! ### Results of the commands: every one completes, and this is its whole effect -/

/-- spec/40_modmul.md R100, R101, R102. -/
def Obligations.ModmulResult : Prop :=
  ∀ (rd ra rb rm : RegIdx) (s : State), s.busy = true →
    (s.source rm ≠ 0 →
      exec (.modmul rd ra rb rm) s =
        .next { s with
          regs := s.regs.set rd.val (s.source ra * s.source rb % s.source rm)
          seq := .idle
          status := { s.status with done := true } }) ∧
    (s.source rm = 0 →
      exec (.modmul rd ra rb rm) s =
        .next { s with seq := .idle, status := { s.status with err := .invalidArgument, done := true } })

/-- spec/41_modexp.md R120, R121: the result is the power, reduced. -/
def Obligations.ModexpResult : Prop :=
  ∀ (rd ra rb rm : RegIdx) (s : State), s.busy = true →
    (s.source rm ≠ 0 →
      exec (.modexp rd ra rb rm) s =
        .next { s with
          regs := s.regs.set rd.val (s.source ra ^ s.source rb % s.source rm)
          seq := .idle
          status := { s.status with done := true } }) ∧
    (s.source rm = 0 →
      exec (.modexp rd ra rb rm) s =
        .next { s with seq := .idle, status := { s.status with err := .invalidArgument, done := true } })

/-- spec/42_egcd_modinv.md R141, R142: for operands below 2^W the command completes, with the coefficients and the gcd of
R140's loop. -/
def Obligations.EgcdResult : Prop :=
  ∀ (rd ra rb : RegIdx) (s : State), s.busy = true → rd ≤ 5 →
    (1 ≤ s.nlimb → s.source ra < 2 ^ s.width → s.source rb < 2 ^ s.width →
      ¬ (s.source ra = 0 ∧ s.source rb = 0) →
      ∃ (x y : Int) (g : Nat),
        extGcd (s.source ra) (s.source rb) = (x, y, g) ∧
        g = Nat.gcd (s.source ra) (s.source rb) ∧
        (s.source ra : Int) * x + (s.source rb : Int) * y = g ∧
        exec (.egcd rd ra rb) s =
          .next { s with
            regs := ((s.regs.set rd.val x.natAbs).set (rd + 1).val y.natAbs).set (rd + 2).val g
            seq := .idle
            status := { s.status with done := true, xneg := decide (x < 0), yneg := decide (y < 0) } }) ∧
    (s.source ra = 0 ∧ s.source rb = 0 →
      exec (.egcd rd ra rb) s =
        .next { s with seq := .idle, status := { s.status with err := .invalidArgument, done := true } })

/-- spec/30_encoding.md R85: EGCD with RD = 6 or 7, a term no decoded word gives, completes with ILLEGAL_COMMAND as its
word does (the model's inference, log entry 18). -/
def Obligations.EgcdWithBadRdIsIllegal : Prop :=
  ∀ (rd ra rb : RegIdx) (s : State), s.busy = true → 5 < rd →
    exec (.egcd rd ra rb) s =
      .next { s with seq := .idle, status := { s.status with err := .illegalCommand, done := true } } ∧
    exec (.egcd rd ra rb) s = runWord (encode (.egcd rd ra rb)) s

/-- spec/42_egcd_modinv.md R143, R144. -/
def Obligations.ModinvResult : Prop :=
  ∀ (rd ra rb : RegIdx) (s : State), s.busy = true →
    (s.source ra ≠ 0 → Nat.gcd (s.source rb) (s.source ra) = 1 →
      ∃ d, d < s.source ra ∧ s.source rb * d % s.source ra = 1 % s.source ra ∧
        exec (.modinv rd ra rb) s =
          .next { s with
            regs := s.regs.set rd.val d
            seq := .idle
            status := { s.status with done := true } }) ∧
    (s.source ra ≠ 0 → Nat.gcd (s.source rb) (s.source ra) ≠ 1 →
      exec (.modinv rd ra rb) s =
        .next { s with seq := .idle, status := { s.status with err := .noInverse, done := true } }) ∧
    (s.source ra = 0 →
      exec (.modinv rd ra rb) s =
        .next { s with seq := .idle, status := { s.status with err := .invalidArgument, done := true } })

/-- spec/43_miller_rabin.md R162, R163. -/
def Obligations.MrroundResult : Prop :=
  ∀ (ra rb : RegIdx) (s : State), s.busy = true →
    (5 ≤ s.source ra → s.source ra % 2 = 1 → 2 ≤ s.source rb → s.source rb ≤ s.source ra - 2 →
      exec (.mrround ra rb) s =
        .next { s with
          seq := .idle
          status := { s.status with done := true, result := mrRoundPass (s.source ra) (s.source rb) } }) ∧
    (s.source ra < 5 ∨ s.source ra % 2 = 0 ∨ s.source rb < 2 ∨ s.source ra - 2 < s.source rb →
      exec (.mrround ra rb) s =
        .next { s with seq := .idle, status := { s.status with err := .invalidArgument, done := true } })

/-- spec/43_miller_rabin.md R164, R165: decided by the pre-filter; or by the first witnesses the responses give, with the
result R165's loop has; or waiting with a request outstanding. -/
def Obligations.MrtestResult : Prop :=
  ∀ (ra : RegIdx) (s : State), s.busy = true →
    (prefilter (s.source ra) = .composite →
      exec (.mrtest ra) s =
        .next { s with seq := .idle, status := { s.status with done := true, result := false } }) ∧
    (prefilter (s.source ra) = .probablyPrime →
      exec (.mrtest ra) s =
        .next { s with seq := .idle, status := { s.status with done := true, result := true } }) ∧
    (∀ as rest, prefilter (s.source ra) = .proceed →
      drawWitnesses (s.source ra) s.sourceRounds s.responses = some (as, rest) →
      (∀ a ∈ as, mrRoundPass (s.source ra) a = true) →
      exec (.mrtest ra) s =
        .next { s with seq := .idle, status := { s.status with done := true, result := true } }) ∧
    (∀ k as a rest, prefilter (s.source ra) = .proceed → k < s.sourceRounds →
      drawWitnesses (s.source ra) (k + 1) s.responses = some (as ++ [a], rest) →
      (∀ a' ∈ as, mrRoundPass (s.source ra) a' = true) → mrRoundPass (s.source ra) a = false →
      exec (.mrtest ra) s =
        .next { s with seq := .idle, status := { s.status with done := true, result := false } }) ∧
    (∀ h k as rest, s.seq = .busy h → prefilter (s.source ra) = .proceed → k < s.sourceRounds →
      drawWitnesses (s.source ra) k s.responses = some (as, rest) →
      (∀ a ∈ as, mrRoundPass (s.source ra) a = true) → drawWitness (s.source ra) rest = none →
      exec (.mrtest ra) s = .next { s with seq := .busy { h with requested := true } })

/-- spec/43_miller_rabin.md R166: with no rounds MRTEST is the pre-filter alone: its decision where it makes one, and
ProbablyPrime for every candidate it does not decide. -/
def Obligations.ZeroRoundsGiveProbablyPrime : Prop :=
  ∀ (ra : RegIdx) (s : State), s.busy = true → s.sourceRounds = 0 →
    (prefilter (s.source ra) = .composite →
      exec (.mrtest ra) s =
        .next { s with seq := .idle, status := { s.status with done := true, result := false } }) ∧
    (prefilter (s.source ra) = .probablyPrime ∨ prefilter (s.source ra) = .proceed →
      exec (.mrtest ra) s =
        .next { s with seq := .idle, status := { s.status with done := true, result := true } })

/-! ### The arithmetic -/

/-- spec/41_modexp.md R122: `bitlen(e)` squarings and `popcount(e)` accumulations. -/
def Obligations.PowModCallCount : Prop :=
  ∀ base e m : Nat, 1 < m → powModCalls base e m = bitlen e + popcount e

/-- spec/42_egcd_modinv.md R142: `|x| ≤ max(b, 1)` and `|y| ≤ max(a, 1)`, for every input. -/
def Obligations.BezoutMagnitudesAreBounded : Prop :=
  ∀ a b : Nat, ¬ (a = 0 ∧ b = 0) →
    (extGcd a b).1.natAbs ≤ max b 1 ∧ (extGcd a b).2.1.natAbs ≤ max a 1

/-- spec/42_egcd_modinv.md R143: the inverse exists exactly for coprime arguments, and it is the unique one in [0, phi). -/
def Obligations.ModInvIsTheInverse : Prop :=
  ∀ phi e : Nat, 1 ≤ phi →
    (modInv phi e = none ↔ Nat.gcd e phi ≠ 1) ∧
    (∀ d, modInv phi e = some d ↔ d < phi ∧ e * d % phi = 1 % phi)

/-- spec/43_miller_rabin.md R160: what each outcome of the pre-filter says of the candidate. -/
def Obligations.PrefilterIsRight : Prop :=
  ∀ n : Nat,
    (prefilter n = .composite → ¬ Nat.Prime n) ∧
    (prefilter n = .probablyPrime → Nat.Prime n) ∧
    (prefilter n = .proceed → n % 2 = 1 ∧ 31 ≤ n ∧ ∀ p ∈ smallPrimes, n % p ≠ 0) ∧
    (n < 31 → prefilter n ≠ .proceed)

/-- spec/43_miller_rabin.md R162: when a round passes, in powers of the witness. -/
def Obligations.RoundPassInPowers : Prop :=
  ∀ n a : Nat, 5 ≤ n → n % 2 = 1 → 2 ≤ a → a ≤ n - 2 →
    ∃ k m : Nat, n - 1 = 2 ^ k * m ∧ m % 2 = 1 ∧
      (mrRoundPass n a = true ↔ a ^ m % n = 1 ∨ ∃ j, j < k ∧ a ^ (2 ^ j * m) % n = n - 1)

/-- spec/43_miller_rabin.md R165: a prime passes the round of every witness. -/
def Obligations.PrimePassesEveryRound : Prop :=
  ∀ n a : Nat, Nat.Prime n → 5 ≤ n → 2 ≤ a → a ≤ n - 2 → mrRoundPass n a = true

/-- spec/43_miller_rabin.md R165: for a prime candidate a completed MRTEST says ProbablyPrime, for every answer of the
entropy source and every round count. -/
def Obligations.MrtestNeverRejectsAPrime : Prop :=
  ∀ (ra : RegIdx) (s t : State), s.busy = true → Nat.Prime (s.source ra) →
    exec (.mrtest ra) s = .next t → t.seq = .idle → t.status.result = true

/-- spec/43_miller_rabin.md R164: a drawn witness lies in [2, n - 2], and the sampler takes whole responses from the
front. -/
def Obligations.SamplerStaysInRange : Prop :=
  ∀ (n : Nat) (rs : List Word) (a : Nat) (rest : List Word), 31 ≤ n →
    drawWitness n rs = some (a, rest) →
      2 ≤ a ∧ a ≤ n - 2 ∧ ∃ used, rs = used ++ rest ∧ used ≠ []

/-- spec/43_miller_rabin.md R164: the draw is under no law: every sequence of witnesses in [2, n - 2] is the answer to
some responses. -/
def Obligations.SamplerReachesEveryWitness : Prop :=
  ∀ (n : Nat) (as : List Nat), 31 ≤ n → (∀ a ∈ as, 2 ≤ a ∧ a ≤ n - 2) →
    ∃ rs : List Word, drawWitnesses n as.length rs = some (as, [])

/-- spec/43_miller_rabin.md R165, R167: once decided, a test's result does not depend on further responses. -/
def Obligations.DecidedTestStaysDecided : Prop :=
  ∀ (n k : Nat) (rs more : List Word), mrTest n k rs ≠ .needsEntropy →
    mrTest n k (rs ++ more) = mrTest n k rs

/-! ### Errors, flags and frames -/

/-- spec/60_exceptions.md R202, R201: which error a completion reports, on the latched operands. -/
def Obligations.ErrorCodeOfACompletion : Prop :=
  ∀ (s t : State) (h : Held), s.seq = .busy h → s.status.err = .none → sequencerStep s = .next t →
    (t.status.err = .illegalCommand ↔ legal h.word = false) ∧
    (t.status.err = .invalidArgument ↔ ∃ i, decodeWord h.word = .ok i ∧ badArgument s i) ∧
    (t.status.err = .noInverse ↔ ∃ i, decodeWord h.word = .ok i ∧ noInverseOperands s i)

/-- spec/60_exceptions.md R204, R200: a command that completes with an error writes no operand register and no flag. -/
def Obligations.FailedCommandWritesNothing : Prop :=
  ∀ (s t : State) (h : Held), s.seq = .busy h → s.status.err = .none → sequencerStep s = .next t →
    t.status.err ≠ .none →
      t = { s with seq := .idle, status := { s.status with err := t.status.err, done := true } }

/-- spec/60_exceptions.md R200, spec/10_state.md R29: from IDLE, ERR keeps its value but for an acceptance or a reset. -/
def Obligations.ErrorStaysUntilAcceptanceOrReset : Prop :=
  ∀ s t : State, s.seq = .idle → step s = .next t →
    t.status.err = s.status.err ∨ t.busy = true ∨ t.status = Status.zero

/-- spec/10_state.md R32: RESULT is written only by MRROUND and MRTEST, XNEG and YNEG only by EGCD; LOST by no command. -/
def Obligations.FlagsBelongToTheirCommands : Prop :=
  ∀ (i : Instr) (s t : State), s.busy = true → exec i s = .next t →
    (t.status.result ≠ s.status.result → (∃ ra rb, i = .mrround ra rb) ∨ ∃ ra, i = .mrtest ra) ∧
    (t.status.xneg ≠ s.status.xneg ∨ t.status.yneg ≠ s.status.yneg → ∃ rd ra rb, i = .egcd rd ra rb) ∧
    t.status.lost = s.status.lost

/-- spec/10_state.md R21, R24: a command changes no register but its destinations, and no other state but STATUS, the
sequencer and, from IDLE, the CMD readback of its own acceptance. -/
def Obligations.CommandFrame : Prop :=
  ∀ (i : Instr) (s t : State), exec i s = .next t →
    (∀ r, r ∉ dests i → t.reg r = s.reg r) ∧
    t.ie = s.ie ∧ t.rounds = s.rounds ∧ t.cmdLast = (s.start i).cmdLast ∧
    t.status.lost = s.status.lost ∧
    t.nlimb = s.nlimb ∧ t.base = s.base ∧ t.rstN = s.rstN ∧ t.port = s.port ∧
    t.agenda = s.agenda ∧ t.freeCtr = s.freeCtr

/-- spec/20_memory.md R53, R54, spec/10_state.md R21: after a completion every byte of the region reads as it would have
read with the command not run, but the bytes of STATUS and of the destination registers' slots. -/
def Obligations.CommandRegionFrame : Prop :=
  ∀ (i : Instr) (s t : State) (off : Nat), exec i s = .next t → t.seq = .idle → off < 0x4000 →
    (off < 0xC ∨ 0x10 ≤ off) →
    (∀ d ∈ dests i, off < limbOffset d 0 ∨ limbOffset d 0 + 0x400 ≤ off) →
      t.readByte off = { s.start i with seq := .idle }.readByte off

/-- spec/10_state.md R24: no intermediate value is architectural: the sequencer's step completes the command, or it leaves
every register and STATUS as they were. -/
def Obligations.CompletionIsOneStep : Prop :=
  ∀ s t : State, s.busy = true → sequencerStep s = .next t →
    (t.seq = .idle ∧ t.status.done = true) ∨
    (t.busy = true ∧ { t with seq := s.seq } = s)

/-- spec/10_state.md R25, spec/70_reset_and_hazards.md R237: acceptance latches the word, the sources and ROUNDS; no host
access that leaves the command in flight changes what is latched; and a command computes only from the latched values:
with other values in the registers and in CONFIG it gives the same status and the same results. -/
def Obligations.CommandComputesFromLatchedValues : Prop :=
  (∀ (s : State) (v : Word) (r : RegIdx),
    (∃ h, (s.accept v).seq = .busy h ∧ h.word = v) ∧
    (s.accept v).source r = s.reg r ∧ (s.accept v).sourceRounds = s.rounds.toNat) ∧
  (∀ (s t : State) (a : Access), s.busy = true → s.hostAccess a = .next t → t.busy = true →
    t.seq = s.seq) ∧
  (∀ (i : Instr) (s t : State) (regs : Vector Nat 8) (rounds : BitVec 8),
    s.busy = true → s.status.err = .none → exec i s = .next t →
      ∃ t', exec i { s with regs := regs, rounds := rounds } = .next t' ∧
        t'.seq = t.seq ∧ t'.status = t.status ∧
        (t.status.err = .none → ∀ d ∈ dests i, t'.reg d = t.reg d))

/-- spec/60_exceptions.md R203, spec/70_reset_and_hazards.md R240: every held command but MRTEST completes at its one
sequencer step, whatever its operands. -/
def Obligations.HeldCommandCompletes : Prop :=
  ∀ (s : State) (h : Held), s.Inv → s.seq = .busy h →
    (∀ ra, decodeWord h.word ≠ .ok (.mrtest ra)) →
      ∃ t, sequencerStep s = .next t ∧ t.seq = .idle ∧ t.status.done = true

/-! ### The registers -/

/-- spec/10_state.md R26. -/
def Obligations.ParamRegister : Prop :=
  ∀ (s : State) (v : Word),
    (∃ w, s.hostAccess (s.memRead 0x0000) = .next (s.answer (s.memRead 0x0000) (.okayRead w)) ∧
      w.extractLsb' 0 16 = BitVec.ofNat 16 s.nlimb ∧ w.extractLsb' 16 8 = 8#8 ∧ w.extractLsb' 24 8 = 0x01#8) ∧
    s.hostAccess (s.memWrite 0x0000 v) = .next (s.answer (s.memWrite 0x0000 v) .okayWrite) ∧
    s.softReset.paramWord = s.paramWord ∧ ∀ level, (s.driveReset level).paramWord = s.paramWord

/-- spec/10_state.md R27. -/
def Obligations.CtrlRegister : Prop :=
  ∀ (s : State) (v : Word),
    (v.getLsbD 1 = false →
      s.hostAccess (s.memWrite 0x0004 v) =
        .next ({ s with ie := v.getLsbD 0 }.answer (s.memWrite 0x0004 v) .okayWrite)) ∧
    (v.getLsbD 1 = true →
      s.hostAccess (s.memWrite 0x0004 v) = .next (s.softReset.answer (s.memWrite 0x0004 v) .okayWrite) ∧
      s.softReset.ie = false) ∧
    s.hostAccess (s.memRead 0x0004) =
      .next (s.answer (s.memRead 0x0004) (.okayRead (if s.ie then 1#32 else 0#32))) ∧
    s.irq = (s.status.done && s.ie) ∧
    ∀ nlimb base, (State.resetWith nlimb base).ie = false

/-- spec/10_state.md R28. -/
def Obligations.CmdRegister : Prop :=
  ∀ (s : State) (v : Word),
    (s.busy = true →
      s.hostAccess (s.memWrite 0x0008 v) =
        .next ({ s with status := { s.status with lost := true } }.answer (s.memWrite 0x0008 v) .okayWrite)) ∧
    (s.busy = false →
      s.hostAccess (s.memWrite 0x0008 v) =
        .next ({ s with
          cmdLast := v
          seq := .busy { word := v, src := s.regs, rounds := s.rounds, requested := false, responses := [] }
          status :=
            { done := false, err := .none, result := false, xneg := false, yneg := false,
              lost := s.status.lost } }.answer (s.memWrite 0x0008 v) .okayWrite)) ∧
    s.hostAccess (s.memRead 0x0008) = .next (s.answer (s.memRead 0x0008) (.okayRead s.cmdLast)) ∧
    (∀ nlimb base, (State.resetWith nlimb base).cmdLast = 0x00000000#32) ∧
    (legal v = false →
      runWord v (s.accept v) =
        .next { s.accept v with
          seq := .idle, status := { (s.accept v).status with err := .illegalCommand, done := true } })

/-- spec/10_state.md R29, R30: the bits of STATUS; a host write clears DONE and LOST where asked and changes nothing
else. -/
def Obligations.StatusRegister : Prop :=
  ∀ (s : State) (v : Word),
    s.hostAccess (s.memRead 0x000C) = .next (s.answer (s.memRead 0x000C) (.okayRead s.statusWord)) ∧
    s.statusWord.getLsbD 0 = s.busy ∧ s.statusWord.getLsbD 1 = s.status.done ∧
    s.statusWord.getLsbD 2 = s.status.result ∧ s.statusWord.getLsbD 3 = s.status.xneg ∧
    s.statusWord.getLsbD 4 = s.status.yneg ∧ s.statusWord.extractLsb' 5 3 = 0#3 ∧
    s.statusWord.extractLsb' 8 4 = s.status.err.code ∧ s.status.err.code.toNat ≤ 3 ∧
    s.statusWord.getLsbD 12 = s.status.lost ∧ s.statusWord.extractLsb' 13 19 = 0#19 ∧
    s.hostAccess (s.memWrite 0x000C v) =
      .next ({ s with
        status :=
          { s.status with
            done := s.status.done && !v.getLsbD 1
            lost := s.status.lost && !v.getLsbD 12 } }.answer (s.memWrite 0x000C v) .okayWrite)

/-- spec/10_state.md R31. -/
def Obligations.ConfigRegister : Prop :=
  ∀ (s : State) (v : Word),
    s.hostAccess (s.memWrite 0x0010 v) =
      .next ({ s with rounds := v.extractLsb' 0 8 }.answer (s.memWrite 0x0010 v) .okayWrite) ∧
    s.hostAccess (s.memRead 0x0010) =
      .next (s.answer (s.memRead 0x0010) (.okayRead (s.rounds.setWidth 32))) ∧
    (∀ nlimb base, (State.resetWith nlimb base).rounds = 10#8) ∧
    (s.busy = true → (s.writeConfig v).sourceRounds = s.sourceRounds) ∧
    ∀ c, ((s.writeConfig v).accept c).sourceRounds = (v.extractLsb' 0 8).toNat

/-- spec/60_exceptions.md R207: the interrupt line, what raises it and what clears it. -/
def Obligations.InterruptLine : Prop :=
  ∀ s : State,
    s.irq = (s.status.done && s.ie) ∧
    (∀ o, (s.complete o).irq = s.ie) ∧
    (∀ v : Word, v.getLsbD 1 = true → (s.writeStatus v).irq = false) ∧
    (∀ v, (s.accept v).irq = false) ∧
    (∀ v : Word, v.getLsbD 0 = false → (s.writeCtrl v).irq = false) ∧
    s.softReset.irq = false ∧ s.hardReset.irq = false ∧
    (∀ v, s.busy = true → (s.writeCmd v).irq = s.irq) ∧
    (∀ i j v, (s.writeLimb i j v).irq = s.irq) ∧
    (∀ a, s.inRegion a.addr = true → legalAccess a (a.addr - s.base) = false →
      (s.regionAccess a).irq = s.irq)

/-! ### The region -/

/-- spec/20_memory.md R51, R53: what stands at each word offset. -/
def Obligations.RegisterMap : Prop :=
  ∀ off : Nat, off < 0x4000 → off % 4 = 0 →
    (locate off = .param ↔ off = 0x0000) ∧ (locate off = .ctrl ↔ off = 0x0004) ∧
    (locate off = .cmd ↔ off = 0x0008) ∧ (locate off = .status ↔ off = 0x000C) ∧
    (locate off = .config ↔ off = 0x0010) ∧
    (∀ i j, locate off = .limb i j ↔ j < 256 ∧ off = 0x1000 + 0x400 * i.val + 4 * j) ∧
    (locate off = .reserved ↔ (0x0014 ≤ off ∧ off ≤ 0x0FFF) ∨ (0x3000 ≤ off ∧ off ≤ 0x3FFF))

/-- spec/20_memory.md R53: reading and writing one limb while BUSY = 0. -/
def Obligations.LimbAccess : Prop :=
  ∀ (s : State) (i : RegIdx) (j : Nat) (v : Word), s.busy = false → s.nlimb ≤ 256 → j < s.nlimb →
    s.hostAccess (s.memRead (0x1000 + 0x400 * i.val + 4 * j)) =
      .next (s.answer (s.memRead (0x1000 + 0x400 * i.val + 4 * j)) (.okayRead (limb (s.reg i) j))) ∧
    s.hostAccess (s.memWrite (0x1000 + 0x400 * i.val + 4 * j) v) =
      .next ({ s with regs := s.regs.set i.val (setLimb (s.reg i) j v) }.answer
        (s.memWrite (0x1000 + 0x400 * i.val + 4 * j) v) .okayWrite) ∧
    (∀ k, k < 32 → (limb (s.reg i) j).getLsbD k = (s.reg i).testBit (32 * j + k)) ∧
    (∀ k, (setLimb (s.reg i) j v).testBit k =
      if 32 * j ≤ k ∧ k < 32 * j + 32 then v.getLsbD (k - 32 * j) else (s.reg i).testBit k)

/-- spec/10_state.md R21, spec/20_memory.md R53: an operand below 2^W is exactly its NLIMB limbs. -/
def Obligations.OperandIsItsLimbs : Prop :=
  ∀ (n v : Nat), v < 2 ^ (32 * n) →
    v = ((List.range n).map (fun j => (limb v j).toNat * 2 ^ (32 * j))).sum

/-- spec/20_memory.md R54: byte lanes, and byte `t` of an operand register. -/
def Obligations.ByteLanes : Prop :=
  (∀ (s : State) (off k b : Nat), off % 4 = 0 → k < 4 → b < 8 →
    (s.readByte (off + k)).getLsbD b = (s.readValue (locate off)).getLsbD (8 * k + b)) ∧
  (∀ (s : State) (i : RegIdx) (t : Nat), s.busy = false → s.nlimb ≤ 256 → t < 4 * s.nlimb →
    s.readByte (0x1000 + 0x400 * i.val + t) = BitVec.ofNat 8 (s.reg i / 2 ^ (8 * t)))

/-- spec/20_memory.md R55: the legal access and the bus ERROR. -/
def Obligations.LegalAndIllegalAccess : Prop :=
  readData .error = some 0#32 ∧
  ∀ (s : State) (a : Access), s.base ≤ a.addr → a.addr < s.base + 0x4000 →
    (a.size ≠ 4 ∨ a.bytemask ≠ 0b1111#4 ∨ (a.addr - s.base) % 4 ≠ 0 →
      s.hostAccess a = .next { s with port := some ⟨a, .error⟩ }) ∧
    (a.size = 4 → a.bytemask = 0b1111#4 → (a.addr - s.base) % 4 = 0 → a.write = true →
      s.hostAccess a =
        .next { s.writeLoc a.wdata (locate (a.addr - s.base)) with port := some ⟨a, .okayWrite⟩ }) ∧
    (a.size = 4 → a.bytemask = 0b1111#4 → (a.addr - s.base) % 4 = 0 → a.write = false →
      s.hostAccess a =
        .next { s.afterRead (locate (a.addr - s.base)) with
          port := some ⟨a, .okayRead (s.readValue (locate (a.addr - s.base)))⟩ })

/-- spec/20_memory.md R56: reserved offsets and the limb slots above NLIMB read 0 and ignore writes. A read of such a slot
while BUSY is left out here (log entry 20). -/
def Obligations.ReservedOffsetsReadZero : Prop :=
  (∀ (s : State) (off : Nat) (v : Word), off % 4 = 0 →
    (0x0014 ≤ off ∧ off ≤ 0x0FFF) ∨ (0x3000 ≤ off ∧ off ≤ 0x3FFF) →
      s.hostAccess (s.memRead off) = .next (s.answer (s.memRead off) (.okayRead 0#32)) ∧
      s.hostAccess (s.memWrite off v) = .next (s.answer (s.memWrite off v) .okayWrite)) ∧
  (∀ (s : State) (i : RegIdx) (j : Nat) (v : Word), s.busy = false → s.nlimb ≤ j → j < 256 →
      s.hostAccess (s.memRead (limbOffset i j)) =
        .next (s.answer (s.memRead (limbOffset i j)) (.okayRead 0#32)) ∧
      s.hostAccess (s.memWrite (limbOffset i j) v) =
        .next (s.answer (s.memWrite (limbOffset i j) v) .okayWrite))

/-- spec/20_memory.md R59: the operand window while BUSY, at every offset of it, and the other registers' rules. That the
unspecified word is the next free value (log entry 4), and that limb slots from NLIMB are no exception (log entry 20),
are the model's choice. -/
def Obligations.WindowWhileBusy : Prop :=
  ∀ (s : State), s.busy = true →
    (∀ off v, off % 4 = 0 → 0x1000 ≤ off → off ≤ 0x2FFF →
      s.hostAccess (s.memWrite off v) =
        .next ({ s with status := { s.status with lost := true } }.answer (s.memWrite off v) .okayWrite) ∧
      s.hostAccess (s.memRead off) =
        .next ({ s with freeCtr := s.freeCtr + 1 }.answer (s.memRead off)
          (.okayRead (Config.freeWord s.freeCtr)))) ∧
    (∀ v, s.readValue .param = s.paramWord ∧ s.readValue .ctrl = s.ctrlWord ∧ s.readValue .cmd = s.cmdLast ∧
      s.readValue .status = s.statusWord ∧ s.readValue .config = s.configWord ∧
      s.writeLoc v .ctrl = s.writeCtrl v ∧ s.writeLoc v .status = s.writeStatus v ∧
      s.writeLoc v .config = s.writeConfig v) ∧
    (∀ v, s.writeLoc v .cmd = { s with status := { s.status with lost := true } })

/-- spec/20_memory.md R58: a read changes nothing but the port's answer (and the model's own counter). -/
def Obligations.ReadsHaveNoSideEffect : Prop :=
  ∀ (s t : State) (a : Access), a.write = false → s.hostAccess a = .next t →
    { t with port := s.port, freeCtr := s.freeCtr } = s

/-- spec/20_memory.md R53: a write of one limb leaves every other byte of the region as it was. -/
def Obligations.LimbWriteFrame : Prop :=
  ∀ (s t : State) (i : RegIdx) (j : Nat) (v : Word) (off : Nat),
    s.busy = false → s.nlimb ≤ 256 → j < 256 → off < 0x4000 →
    s.hostAccess (s.memWrite (limbOffset i j) v) = .next t →
    (off < limbOffset i j ∨ limbOffset i j + 4 ≤ off) →
      t.readByte off = s.readByte off ∧ (∀ r, r ≠ i → t.reg r = s.reg r)

/-! ### Reset -/

/-- spec/70_reset_and_hazards.md R230: the state when `rst_n` is asserted, over a running command too, and when it is
released; and the silent port while it is low, at every kind of event. Each of R0..R7 is unspecified: a free value below
2^W, of which nothing is said (the model's choice, log entry 3). That the assertion resets as the release does, that
nothing moves while `rst_n` is low and that the port is emptied are the model's choice (log entry 14). -/
def Obligations.HardReset : Prop :=
  (∀ (s : State) (level : Bool), level = false ∨ s.rstN = false →
    (let t := s.driveReset level
     t.rstN = level ∧ t.seq = .idle ∧ t.requested = false ∧ t.paramWord = s.paramWord ∧
     t.ctrlWord = 0x00000000#32 ∧ t.cmdLast = 0x00000000#32 ∧ t.statusWord = 0x00000000#32 ∧
     t.configWord = 0x0000000A#32 ∧ t.irq = false ∧ t.port = none ∧
     ∀ r, ∃ c, s.freeCtr ≤ c ∧ t.reg r = Config.freeOperand c % 2 ^ s.width)) ∧
  (∀ s : State, s.rstN = true → s.driveReset true = s) ∧
  (∀ (s : State) (rest : List Event), s.rstN = false →
    (∀ a, s.agenda = .host a :: rest → step s = .next { s with agenda := rest, port := none }) ∧
    (∀ a first, s.agenda = .sameCycle a first :: rest →
      step s = .next { s with agenda := rest, port := none }) ∧
    (s.agenda = .sequencer :: rest → step s = .next { s with agenda := rest }) ∧
    (∀ w, s.agenda = .entropy w :: rest → step s = .next { s with agenda := rest }) ∧
    (∀ level, s.agenda = .resetPin level :: rest →
      step s = .next ({ s with agenda := rest }.driveReset level)) ∧
    (s.agenda = [] → step s = .next s))

/-- spec/70_reset_and_hazards.md R231. That an unspecified destination of the aborted command takes a free value below
2^W, where row U3 of spec/93_implementation_defined.md has a later read fault, is the model's choice (log entry 3). -/
def Obligations.SoftReset : Prop :=
  ∀ s : State,
    (∀ v : Word, v.getLsbD 1 = true →
      s.hostAccess (s.memWrite 0x0004 v) = .next (s.softReset.answer (s.memWrite 0x0004 v) .okayWrite)) ∧
    (s.seq = .idle →
      s.softReset =
        { s with ie := false, cmdLast := 0x00000000#32, status := Status.zero, rounds := 10#8 }) ∧
    (∀ h, s.seq = .busy h →
      s.softReset.seq = .idle ∧ s.softReset.ie = false ∧ s.softReset.cmdLast = 0x00000000#32 ∧
      s.softReset.statusWord = 0x00000000#32 ∧ s.softReset.rounds = 10#8 ∧ s.softReset.requested = false ∧
      (∀ r, r ∉ wordDests h.word → s.softReset.reg r = s.reg r) ∧
      (∀ r, r ∈ wordDests h.word →
        ∃ c, s.freeCtr ≤ c ∧ s.softReset.reg r = Config.freeOperand c % 2 ^ s.width))

/-- spec/70_reset_and_hazards.md R232: after either reset the first CMD write is accepted, and no command runs before it. -/
def Obligations.FirstCommandAfterResetIsAccepted : Prop :=
  ∀ (s u : State) (v : Word), (u = s.softReset ∨ (s.rstN = false ∧ u = s.driveReset true)) →
    u.busy = false ∧
    ∃ t, u.hostAccess (u.memWrite 0x0008 v) = .next t ∧ t.cmdLast = v ∧
      t.seq = .busy { word := v, src := u.regs, rounds := 10#8, requested := false, responses := [] }

/-! ### Same cycle -/

/-- spec/60_exceptions.md R209. In the cycle of a completion: beside a soft reset the completion is discarded; beside a
write of 1 to DONE it still sets DONE; beside a CMD write it stands and the write sets LOST. Beside a step that does not
complete (an MRTEST that waits) the same writes act in the same place. These are the only transactions whose place is
pinned; beside any other the event says which came first, and the second acts on what the first left: shown for a STATUS
read, a CONFIG write and a limb's read and write. That a limb read before the completion answers the next free value and
moves the model's counter (log entry 4), and that with no command held before the cycle the transaction acts alone (log
entry 13), are the model's choice. -/
def Obligations.SameCycleOrder : Prop :=
  (∀ (s t : State) (first : Bool) (v : Word), s.busy = true → sequencerStep s = .next t → t.seq = .idle →
    (v.getLsbD 1 = true →
      sameCycleStep s (s.memWrite 0x0004 v) first =
        .next (s.softReset.answer (s.memWrite 0x0004 v) .okayWrite)) ∧
    (v.getLsbD 1 = true →
      ∃ u, sameCycleStep s (s.memWrite 0x000C v) first = .next u ∧ u.status.done = true ∧ u.regs = t.regs) ∧
    (∃ u, sameCycleStep s (s.memWrite 0x0008 v) first = .next u ∧ u.status.lost = true ∧
      u.cmdLast = s.cmdLast ∧ u.regs = t.regs ∧ u.status.done = true ∧ u.status.err = t.status.err ∧
      u.status.result = t.status.result ∧ u.status.xneg = t.status.xneg ∧ u.status.yneg = t.status.yneg)) ∧
  (∀ (s t : State) (first : Bool) (v : Word), s.busy = true → sequencerStep s = .next t → t.busy = true →
    (v.getLsbD 1 = true →
      sameCycleStep s (s.memWrite 0x0004 v) first =
        .next (s.softReset.answer (s.memWrite 0x0004 v) .okayWrite)) ∧
    (v.getLsbD 1 = true →
      sameCycleStep s (s.memWrite 0x000C v) first =
        .next ({ t with
          status :=
            { t.status with
              done := false
              lost := t.status.lost && !v.getLsbD 12 } }.answer (s.memWrite 0x000C v) .okayWrite)) ∧
    sameCycleStep s (s.memWrite 0x0008 v) first =
      .next ({ t with status := { t.status with lost := true } }.answer (s.memWrite 0x0008 v) .okayWrite)) ∧
  (∀ (s u : State) (a : Access) (first : Bool), s.busy = true → s.hostWins a = true →
    s.hostAccess a = .next u → sameCycleStep s a first = sequencerStep u) ∧
  (∀ (s : State) (a : Access), s.hostWins a = true ↔
    s.base ≤ a.addr ∧ a.addr < s.base + 0x4000 ∧ a.size = 4 ∧ a.bytemask = 0b1111#4 ∧ a.write = true ∧
    (a.addr = s.base + 0x0008 ∨
      (a.addr = s.base + 0x0004 ∨ a.addr = s.base + 0x000C) ∧ a.wdata.getLsbD 1 = true)) ∧
  (∀ (s : State) (a : Access), s.busy = true → s.hostWins a = false →
    (∀ t, sequencerStep s = .next t → sameCycleStep s a true = t.hostAccess a) ∧
    (∀ u, s.hostAccess a = .next u → sameCycleStep s a false = sequencerStep u)) ∧
  (∀ s t : State, s.busy = true → sequencerStep s = .next t → t.seq = .idle →
    sameCycleStep s (s.memRead 0x000C) true =
      .next (t.answer (s.memRead 0x000C) (.okayRead t.statusWord)) ∧
    sameCycleStep s (s.memRead 0x000C) false =
      .next (t.answer (s.memRead 0x000C) (.okayRead s.statusWord)) ∧
    (∀ v first, sameCycleStep s (s.memWrite 0x0010 v) first =
      .next ({ t with rounds := v.extractLsb' 0 8 }.answer (s.memWrite 0x0010 v) .okayWrite)) ∧
    (∀ (i : RegIdx) (j : Nat) (v : Word), s.nlimb ≤ 256 → j < s.nlimb →
      sameCycleStep s (s.memWrite (limbOffset i j) v) true =
        .next ({ t with regs := t.regs.set i.val (setLimb (t.reg i) j v) }.answer
          (s.memWrite (limbOffset i j) v) .okayWrite) ∧
      sameCycleStep s (s.memWrite (limbOffset i j) v) false =
        .next ({ t with status := { t.status with lost := true } }.answer
          (s.memWrite (limbOffset i j) v) .okayWrite) ∧
      sameCycleStep s (s.memRead (limbOffset i j)) true =
        .next (t.answer (s.memRead (limbOffset i j)) (.okayRead (limb (t.reg i) j))) ∧
      sameCycleStep s (s.memRead (limbOffset i j)) false =
        .next ({ t with freeCtr := s.freeCtr + 1 }.answer (s.memRead (limbOffset i j))
          (.okayRead (Config.freeWord s.freeCtr))))) ∧
  (∀ (s : State) (a : Access) (first : Bool), s.busy = false → sameCycleStep s a first = s.hostAccess a)

/-! ### Entropy -/

/-- spec/43_miller_rabin.md R164: a response answers an outstanding request and nothing else moves; a waiting MRTEST stays
as it is until one comes. A response with no request outstanding is the model's choice (log entry 9). -/
def Obligations.EntropyRequestAndResponse : Prop :=
  ∀ (s : State) (h : Held) (w : Word), s.seq = .busy h →
    (h.requested = true →
      s.entropyResponse w =
        { s with seq := .busy { h with requested := false, responses := h.responses ++ [w] } }) ∧
    (h.requested = false → s.entropyResponse w = s) ∧
    (∀ ra, h.requested = true → mrTest (s.source ra) s.sourceRounds s.responses = .needsEntropy →
      exec (.mrtest ra) s = .next s)

/-! ### Invariants and safety -/

/-- The invariant holds at reset, for every legal NLIMB and BASE (spec/00_scope.md R6). -/
def Obligations.ResetHasTheInvariant : Prop :=
  State.reset.Inv ∧
  ∀ nlimb base, 1 ≤ nlimb → nlimb ≤ 256 → base % 0x4000 = 0 → (State.resetWith nlimb base).Inv

/-- spec/00_scope.md R6, R7, spec/10_state.md R21, R25, R29, R32, spec/60_exceptions.md R200: every step keeps the
invariant. -/
def Obligations.StepKeepsTheInvariant : Prop :=
  ∀ s t : State, s.Inv → step s = .next t → t.Inv

/-- spec/20_memory.md R62, spec/70_reset_and_hazards.md R236, R241: once the host has read BUSY = 0 as its last access, the
sequencer is IDLE, and every step keeps it so until the host's next access. -/
def Obligations.ObservedIdleIsIdle : Prop :=
  (State.reset.observedIdle → State.reset.seq = .idle) ∧
  (∀ s t : State, (s.observedIdle → s.seq = .idle) → step s = .next t → t.observedIdle → t.seq = .idle) ∧
  (∀ s : State, (s.observedIdle → s.seq = .idle) → s.runEnded → step s = .next s)

/-- spec/60_exceptions.md R203, R206: from a state with the invariant a step answers a next state; its only stop is an
access outside the region, where it does stop (the model's choice, log entry 11). -/
def Obligations.StepStopsOnlyOutsideTheRegion : Prop :=
  (∀ s : State, s.Inv → (∃ t, step s = .next t) ∨
    ∃ addr, s.inRegion addr = false ∧ step s = .fault (.outsideRegion addr)) ∧
  (∀ (s : State) (a : Access), a.addr < s.base ∨ s.base + 0x4000 ≤ a.addr →
    s.hostAccess a = .fault (.outsideRegion a.addr))

/-- spec/00_scope.md R6, spec/10_state.md R26: NLIMB and BASE never change. -/
def Obligations.StepKeepsTheParameters : Prop :=
  ∀ s t : State, step s = .next t → t.nlimb = s.nlimb ∧ t.base = s.base
end

