-- ==== Sys2Proof/Laws/Arith.lean ====
section
/-! SUPPORT. What the arithmetic of the command files computes, one lemma per function. -/

namespace Sys2Proof.Machine

theorem mulMod_lt (a b : Nat) {m : Nat} (h : m ≠ 0) : mulMod a b m < m :=
  Nat.mod_lt _ (Nat.pos_of_ne_zero h)

/-- Halving takes one bit off (spec/00_scope.md R9). -/
theorem bitlen_succ_half {e : Nat} (h : e ≠ 0) : bitlen e = bitlen (e / 2) + 1 := by
  unfold bitlen
  by_cases h1 : e / 2 = 0
  · have : e = 1 := by omega
    subst this
    decide
  · rw [if_neg h, if_neg h1, Nat.log2_def, if_pos (by omega)]

theorem lt_two_pow_bitlen (v : Nat) : v < 2 ^ bitlen v := by
  unfold bitlen
  split
  · omega
  · exact Nat.lt_log2_self

theorem two_pow_le_of_bitlen {v : Nat} (h : v ≠ 0) : 2 ^ (bitlen v - 1) ≤ v := by
  unfold bitlen
  rw [if_neg h, Nat.add_sub_cancel]
  exact Nat.log2_self_le h

/-- R121's loop invariant: with fuel for the exponent's bits, the loop accumulates `result * b ^ e` modulo `m`. -/
theorem powLoop_result (m : Nat) (fuel : Nat) (p : PowState) (h : bitlen p.e ≤ fuel) :
    (powLoop m fuel p).result % m = p.result * p.b ^ p.e % m := by
  induction fuel generalizing p with
  | zero =>
    have he : p.e = 0 := by
      by_contra hne
      have := bitlen_succ_half hne
      omega
    simp [powLoop, he]
  | succ fuel ih =>
    unfold powLoop
    split
    · next he => simp [he]
    · next he =>
      have hb : bitlen (powPass m p).e ≤ fuel := by
        have := bitlen_succ_half he
        have e' : (powPass m p).e = p.e / 2 := by simp only [powPass]; split <;> rfl
        rw [e']
        omega
      rw [ih _ hb]
      have hpow : p.b ^ p.e = p.b ^ (p.e % 2) * (p.b * p.b) ^ (p.e / 2) := by
        rw [← pow_two, ← pow_mul, ← pow_add]
        congr 1
        omega
      rw [hpow]
      simp only [powPass, mulMod]
      split
      · next h1 =>
        simp only [h1, pow_one]
        rw [Nat.mul_mod, Nat.pow_mod, Nat.mod_mod, Nat.mod_mod, ← Nat.pow_mod, ← Nat.mul_mod, mul_assoc]
      · next h1 =>
        have h0 : p.e % 2 = 0 := by omega
        simp only [h0, pow_zero, one_mul]
        rw [Nat.mul_mod, Nat.pow_mod, Nat.mod_mod, ← Nat.pow_mod, ← Nat.mul_mod]

/-- The accumulator stays reduced. -/
theorem powLoop_result_lt {m : Nat} (hm : m ≠ 0) (fuel : Nat) (p : PowState) (h : p.result < m) :
    (powLoop m fuel p).result < m := by
  induction fuel generalizing p with
  | zero => exact h
  | succ fuel ih =>
    unfold powLoop
    split
    · exact h
    · refine ih _ ?_
      simp only [powPass]
      split
      · exact mulMod_lt _ _ hm
      · exact h

/-- R121: square-and-multiply computes the power. -/
theorem powMod_eq_pow (base e m : Nat) (hm : 1 ≤ m) : powMod base e m = base ^ e % m := by
  unfold powMod
  split
  · next h => subst h; simp [Nat.mod_one]
  · next h =>
    have hlt : (powRun base e m).result < m := by
      refine powLoop_result_lt (by omega) _ _ ?_
      show 1 < m
      omega
    have heq := powLoop_result m (bitlen e) { result := 1, b := base % m, e := e, calls := 0 } (le_refl _)
    rw [← Nat.mod_eq_of_lt hlt]
    unfold powRun
    rw [heq, one_mul]
    show (base % m) ^ e % m = base ^ e % m
    rw [← Nat.pow_mod]

/-- R140's loop keeps `oldR = a * oldS + b * oldT` and `r = a * s + b * t`, and the gcd of the remainders. -/
structure EuclidInv (a b : Nat) (e : EuclidState) : Prop where
  old_comb : (e.oldR : Int) = a * e.oldS + b * e.oldT
  cur_comb : (e.r : Int) = a * e.s + b * e.t
  gcd_eq : Nat.gcd e.oldR e.r = Nat.gcd a b

theorem euclidStart_inv (a b : Nat) : EuclidInv a b (euclidStart a b) := by
  constructor <;> simp [euclidStart]

theorem euclidPass_inv {a b : Nat} {e : EuclidState} (h : EuclidInv a b e) :
    EuclidInv a b (euclidPass e) := by
  have hle : e.oldR / e.r * e.r ≤ e.oldR := Nat.div_mul_le_self _ _
  refine ⟨h.cur_comb, ?_, ?_⟩
  · show ((e.oldR - e.oldR / e.r * e.r : Nat) : Int) = _
    simp only [euclidPass]
    push_cast [hle]
    linear_combination h.old_comb - ((e.oldR : Int) / (e.r : Int)) * h.cur_comb
  · show Nat.gcd e.r (e.oldR - e.oldR / e.r * e.r) = _
    have : e.oldR - e.oldR / e.r * e.r = e.oldR % e.r := by
      have := Nat.div_add_mod' e.oldR e.r
      omega
    rw [this, Nat.gcd_comm, ← Nat.gcd_rec, Nat.gcd_comm, h.gcd_eq]

/-- The remainder strictly falls, so `r` passes empty it (R140: the loop ends for every input). -/
theorem euclidPass_r_lt {e : EuclidState} (h : e.r ≠ 0) : (euclidPass e).r < e.r := by
  show e.oldR - e.oldR / e.r * e.r < e.r
  have := Nat.div_add_mod' e.oldR e.r
  have := Nat.mod_lt e.oldR (Nat.pos_of_ne_zero h)
  omega

/-- Whatever every pass keeps, the loop keeps. -/
theorem euclidLoop_induct {P : EuclidState → Prop} (hP : ∀ e, e.r ≠ 0 → P e → P (euclidPass e))
    (fuel : Nat) (e : EuclidState) (h : P e) : P (euclidLoop fuel e) := by
  induction fuel generalizing e with
  | zero => exact h
  | succ fuel ih =>
    unfold euclidLoop
    split
    · exact h
    · next hr => exact ih _ (hP e hr h)

theorem euclidLoop_r (fuel : Nat) (e : EuclidState) (h : e.r ≤ fuel) : (euclidLoop fuel e).r = 0 := by
  induction fuel generalizing e with
  | zero => exact Nat.le_zero.mp h
  | succ fuel ih =>
    unfold euclidLoop
    split
    · next hr => exact hr
    · next hr =>
      refine ih _ ?_
      have := euclidPass_r_lt hr
      omega

/-- R140, the contract of §4.2: Bézout coefficients of the greatest common divisor. -/
theorem extGcd_bezout (a b : Nat) :
    (a : Int) * (extGcd a b).1 + (b : Int) * (extGcd a b).2.1 = (extGcd a b).2.2 ∧
      (extGcd a b).2.2 = Nat.gcd a b := by
  have hinv := euclidLoop_induct (P := EuclidInv a b) (fun _ _ h => euclidPass_inv h) b _ (euclidStart_inv a b)
  have hr := euclidLoop_r b (euclidStart a b) (le_refl _)
  refine ⟨hinv.old_comb.symm, ?_⟩
  have := hinv.gcd_eq
  rw [hr, Nat.gcd_zero_right] at this
  exact this

/-- R143: there is an inverse exactly for coprime arguments. -/
theorem modInv_eq_none_iff (phi e : Nat) : modInv phi e = none ↔ Nat.gcd e phi ≠ 1 := by
  have h := (extGcd_bezout e phi).2
  unfold modInv
  rw [← h]
  simp only
  split <;> simp_all

/-- R143: what the inverse satisfies. -/
theorem modInv_eq_some {phi e d : Nat} (hphi : 1 ≤ phi) (h : modInv phi e = some d) :
    d < phi ∧ e * d % phi = 1 % phi := by
  obtain ⟨hb, hg⟩ := extGcd_bezout e phi
  unfold modInv at h
  simp only at h
  split at h
  · cases h
  · next h1 =>
    have h1' : (extGcd e phi).2.2 = 1 := by simpa using h1
    generalize (extGcd e phi).1 = x at *
    generalize (extGcd e phi).2.1 = y at *
    have hd : (d : Int) = x % phi := by
      have hnn : 0 ≤ x % (phi : Int) := Int.emod_nonneg _ (by omega)
      simp only [Option.some.injEq] at h
      omega
    have hlt : x % (phi : Int) < phi := Int.emod_lt_of_pos _ (by omega)
    refine ⟨by omega, ?_⟩
    zify
    rw [hd, Int.mul_emod, Int.emod_emod, ← Int.mul_emod]
    rw [h1'] at hb
    have : (e : Int) * x = 1 - phi * y := by push_cast at hb; linarith
    rw [this, Int.sub_mul_emod_self_left]

end Sys2Proof.Machine
end

