-- ==== Sys2Proof/Laws/Bits.lean ====
section
/-! SUPPORT. Limbs of an operand, bit by bit (spec/20_memory.md R53). -/

namespace Sys2Proof.Machine

theorem limb_getLsbD (v j k : Nat) (hk : k < 32) : (limb v j).getLsbD k = v.testBit (32 * j + k) := by
  rw [limb, BitVec.getLsbD_ofNat, ← Nat.shiftRight_eq_div_pow, Nat.testBit_shiftRight]
  simp [hk]

/-- The three parts of a register a limb write puts together. -/
theorem setLimb_testBit (v j k : Nat) (w : Word) :
    (setLimb v j w).testBit k =
      if 32 * j ≤ k ∧ k < 32 * j + 32 then w.getLsbD (k - 32 * j) else v.testBit k := by
  have hlow : v % 2 ^ (32 * j) < 2 ^ (32 * j) := Nat.mod_lt _ (by positivity)
  have hform : setLimb v j w =
      2 ^ (32 * j) * (2 ^ 32 * (v / 2 ^ (32 * j + 32)) + w.toNat) + v % 2 ^ (32 * j) := by
    unfold setLimb
    rw [pow_add]
    ring
  rw [hform, Nat.testBit_two_pow_mul_add _ hlow]
  by_cases h1 : k < 32 * j
  · rw [if_pos h1, if_neg (by omega), Nat.testBit_mod_two_pow]
    simp [h1]
  · have hw : w.toNat < 2 ^ 32 := w.isLt
    generalize hx : w.toNat = x at hw
    rw [if_neg h1, Nat.testBit_two_pow_mul_add (i := 32) (v / 2 ^ (32 * j + 32)) hw]
    by_cases h2 : k - 32 * j < 32
    · rw [if_pos h2, if_pos (by omega), ← hx, BitVec.testBit_toNat]
    · rw [if_neg h2, if_neg (by omega), Nat.testBit_div_two_pow]
      have hk : k - 32 * j - 32 + (32 * j + 32) = k := by omega
      rw [hk]

/-- A limb write keeps an operand in range (spec/10_state.md R21). -/
theorem setLimb_lt {v j n : Nat} (w : Word) (hv : v < 2 ^ (32 * n)) (hj : j < n) :
    setLimb v j w < 2 ^ (32 * n) := by
  refine Nat.lt_pow_two_of_testBit _ fun k hk => ?_
  rw [setLimb_testBit, if_neg (by omega)]
  exact Nat.testBit_lt_two_pow (lt_of_lt_of_le hv (Nat.pow_le_pow_right (by omega) hk))

end Sys2Proof.Machine
end

