-- ==== Sys2Proof/Laws/State.lean ====
section
/-! SUPPORT. What each named update of State leaves and sets, one lemma per field. -/

namespace Sys2Proof.Machine

variable (s : State)

section
variable (r : RegIdx) (v : Nat)
@[simp] theorem State.setReg_nlimb : (s.setReg r v).nlimb = s.nlimb := rfl
@[simp] theorem State.setReg_base : (s.setReg r v).base = s.base := rfl
@[simp] theorem State.setReg_regs : (s.setReg r v).regs = s.regs.set r.val v := rfl
@[simp] theorem State.setReg_seq : (s.setReg r v).seq = s.seq := rfl
@[simp] theorem State.setReg_ie : (s.setReg r v).ie = s.ie := rfl
@[simp] theorem State.setReg_cmdLast : (s.setReg r v).cmdLast = s.cmdLast := rfl
@[simp] theorem State.setReg_status : (s.setReg r v).status = s.status := rfl
@[simp] theorem State.setReg_rounds : (s.setReg r v).rounds = s.rounds := rfl
@[simp] theorem State.setReg_rstN : (s.setReg r v).rstN = s.rstN := rfl
@[simp] theorem State.setReg_port : (s.setReg r v).port = s.port := rfl
@[simp] theorem State.setReg_agenda : (s.setReg r v).agenda = s.agenda := rfl
@[simp] theorem State.setReg_freeCtr : (s.setReg r v).freeCtr = s.freeCtr := rfl
end

section
variable (r : RegIdx)
@[simp] theorem State.scramble_nlimb : (s.scramble r).nlimb = s.nlimb := rfl
@[simp] theorem State.scramble_base : (s.scramble r).base = s.base := rfl
@[simp] theorem State.scramble_regs : (s.scramble r).regs = s.regs.set r.val (Config.freeOperand s.freeCtr % 2 ^ s.width) := rfl
@[simp] theorem State.scramble_seq : (s.scramble r).seq = s.seq := rfl
@[simp] theorem State.scramble_ie : (s.scramble r).ie = s.ie := rfl
@[simp] theorem State.scramble_cmdLast : (s.scramble r).cmdLast = s.cmdLast := rfl
@[simp] theorem State.scramble_status : (s.scramble r).status = s.status := rfl
@[simp] theorem State.scramble_rounds : (s.scramble r).rounds = s.rounds := rfl
@[simp] theorem State.scramble_rstN : (s.scramble r).rstN = s.rstN := rfl
@[simp] theorem State.scramble_port : (s.scramble r).port = s.port := rfl
@[simp] theorem State.scramble_agenda : (s.scramble r).agenda = s.agenda := rfl
@[simp] theorem State.scramble_freeCtr : (s.scramble r).freeCtr = s.freeCtr + 1 := rfl
end

section
variable (v : Word)
@[simp] theorem State.accept_nlimb : (s.accept v).nlimb = s.nlimb := rfl
@[simp] theorem State.accept_base : (s.accept v).base = s.base := rfl
@[simp] theorem State.accept_regs : (s.accept v).regs = s.regs := rfl
@[simp] theorem State.accept_seq : (s.accept v).seq = Sequencer.busy ⟨v, s.regs, s.rounds, false, []⟩ := rfl
@[simp] theorem State.accept_ie : (s.accept v).ie = s.ie := rfl
@[simp] theorem State.accept_cmdLast : (s.accept v).cmdLast = v := rfl
@[simp] theorem State.accept_status : (s.accept v).status = s.status.atAcceptance := rfl
@[simp] theorem State.accept_rounds : (s.accept v).rounds = s.rounds := rfl
@[simp] theorem State.accept_rstN : (s.accept v).rstN = s.rstN := rfl
@[simp] theorem State.accept_port : (s.accept v).port = s.port := rfl
@[simp] theorem State.accept_agenda : (s.accept v).agenda = s.agenda := rfl
@[simp] theorem State.accept_freeCtr : (s.accept v).freeCtr = s.freeCtr := rfl
end

section
@[simp] theorem State.finish_nlimb : (s.finish).nlimb = s.nlimb := rfl
@[simp] theorem State.finish_base : (s.finish).base = s.base := rfl
@[simp] theorem State.finish_regs : (s.finish).regs = s.regs := rfl
@[simp] theorem State.finish_seq : (s.finish).seq = Sequencer.idle := rfl
@[simp] theorem State.finish_ie : (s.finish).ie = s.ie := rfl
@[simp] theorem State.finish_cmdLast : (s.finish).cmdLast = s.cmdLast := rfl
@[simp] theorem State.finish_status : (s.finish).status = s.status.setDone := rfl
@[simp] theorem State.finish_rounds : (s.finish).rounds = s.rounds := rfl
@[simp] theorem State.finish_rstN : (s.finish).rstN = s.rstN := rfl
@[simp] theorem State.finish_port : (s.finish).port = s.port := rfl
@[simp] theorem State.finish_agenda : (s.finish).agenda = s.agenda := rfl
@[simp] theorem State.finish_freeCtr : (s.finish).freeCtr = s.freeCtr := rfl
end

section
variable (c : ErrCode)
@[simp] theorem State.raiseError_nlimb : (s.raiseError c).nlimb = s.nlimb := rfl
@[simp] theorem State.raiseError_base : (s.raiseError c).base = s.base := rfl
@[simp] theorem State.raiseError_regs : (s.raiseError c).regs = s.regs := rfl
@[simp] theorem State.raiseError_seq : (s.raiseError c).seq = Sequencer.idle := rfl
@[simp] theorem State.raiseError_ie : (s.raiseError c).ie = s.ie := rfl
@[simp] theorem State.raiseError_cmdLast : (s.raiseError c).cmdLast = s.cmdLast := rfl
@[simp] theorem State.raiseError_status : (s.raiseError c).status = (s.status.setErr c).setDone := rfl
@[simp] theorem State.raiseError_rounds : (s.raiseError c).rounds = s.rounds := rfl
@[simp] theorem State.raiseError_rstN : (s.raiseError c).rstN = s.rstN := rfl
@[simp] theorem State.raiseError_port : (s.raiseError c).port = s.port := rfl
@[simp] theorem State.raiseError_agenda : (s.raiseError c).agenda = s.agenda := rfl
@[simp] theorem State.raiseError_freeCtr : (s.raiseError c).freeCtr = s.freeCtr := rfl
end

section
@[simp] theorem State.clearControl_nlimb : (s.clearControl).nlimb = s.nlimb := rfl
@[simp] theorem State.clearControl_base : (s.clearControl).base = s.base := rfl
@[simp] theorem State.clearControl_regs : (s.clearControl).regs = s.regs := rfl
@[simp] theorem State.clearControl_seq : (s.clearControl).seq = Sequencer.idle := rfl
@[simp] theorem State.clearControl_ie : (s.clearControl).ie = false := rfl
@[simp] theorem State.clearControl_cmdLast : (s.clearControl).cmdLast = 0x00000000#32 := rfl
@[simp] theorem State.clearControl_status : (s.clearControl).status = Status.zero := rfl
@[simp] theorem State.clearControl_rounds : (s.clearControl).rounds = 10#8 := rfl
@[simp] theorem State.clearControl_rstN : (s.clearControl).rstN = s.rstN := rfl
@[simp] theorem State.clearControl_port : (s.clearControl).port = s.port := rfl
@[simp] theorem State.clearControl_agenda : (s.clearControl).agenda = s.agenda := rfl
@[simp] theorem State.clearControl_freeCtr : (s.clearControl).freeCtr = s.freeCtr := rfl
end

section
variable (v : Word)
@[simp] theorem State.writeStatus_nlimb : (s.writeStatus v).nlimb = s.nlimb := rfl
@[simp] theorem State.writeStatus_base : (s.writeStatus v).base = s.base := rfl
@[simp] theorem State.writeStatus_regs : (s.writeStatus v).regs = s.regs := rfl
@[simp] theorem State.writeStatus_seq : (s.writeStatus v).seq = s.seq := rfl
@[simp] theorem State.writeStatus_ie : (s.writeStatus v).ie = s.ie := rfl
@[simp] theorem State.writeStatus_cmdLast : (s.writeStatus v).cmdLast = s.cmdLast := rfl
@[simp] theorem State.writeStatus_status : (s.writeStatus v).status = s.status.hostWrite v := rfl
@[simp] theorem State.writeStatus_rounds : (s.writeStatus v).rounds = s.rounds := rfl
@[simp] theorem State.writeStatus_rstN : (s.writeStatus v).rstN = s.rstN := rfl
@[simp] theorem State.writeStatus_port : (s.writeStatus v).port = s.port := rfl
@[simp] theorem State.writeStatus_agenda : (s.writeStatus v).agenda = s.agenda := rfl
@[simp] theorem State.writeStatus_freeCtr : (s.writeStatus v).freeCtr = s.freeCtr := rfl
end

section
variable (v : Word)
@[simp] theorem State.writeConfig_nlimb : (s.writeConfig v).nlimb = s.nlimb := rfl
@[simp] theorem State.writeConfig_base : (s.writeConfig v).base = s.base := rfl
@[simp] theorem State.writeConfig_regs : (s.writeConfig v).regs = s.regs := rfl
@[simp] theorem State.writeConfig_seq : (s.writeConfig v).seq = s.seq := rfl
@[simp] theorem State.writeConfig_ie : (s.writeConfig v).ie = s.ie := rfl
@[simp] theorem State.writeConfig_cmdLast : (s.writeConfig v).cmdLast = s.cmdLast := rfl
@[simp] theorem State.writeConfig_status : (s.writeConfig v).status = s.status := rfl
@[simp] theorem State.writeConfig_rounds : (s.writeConfig v).rounds = v.extractLsb' 0 8 := rfl
@[simp] theorem State.writeConfig_rstN : (s.writeConfig v).rstN = s.rstN := rfl
@[simp] theorem State.writeConfig_port : (s.writeConfig v).port = s.port := rfl
@[simp] theorem State.writeConfig_agenda : (s.writeConfig v).agenda = s.agenda := rfl
@[simp] theorem State.writeConfig_freeCtr : (s.writeConfig v).freeCtr = s.freeCtr := rfl
end

section
variable (a : Access) (r : Response)
@[simp] theorem State.answer_nlimb : (s.answer a r).nlimb = s.nlimb := rfl
@[simp] theorem State.answer_base : (s.answer a r).base = s.base := rfl
@[simp] theorem State.answer_regs : (s.answer a r).regs = s.regs := rfl
@[simp] theorem State.answer_seq : (s.answer a r).seq = s.seq := rfl
@[simp] theorem State.answer_ie : (s.answer a r).ie = s.ie := rfl
@[simp] theorem State.answer_cmdLast : (s.answer a r).cmdLast = s.cmdLast := rfl
@[simp] theorem State.answer_status : (s.answer a r).status = s.status := rfl
@[simp] theorem State.answer_rounds : (s.answer a r).rounds = s.rounds := rfl
@[simp] theorem State.answer_rstN : (s.answer a r).rstN = s.rstN := rfl
@[simp] theorem State.answer_port : (s.answer a r).port = some ⟨a, r⟩ := rfl
@[simp] theorem State.answer_agenda : (s.answer a r).agenda = s.agenda := rfl
@[simp] theorem State.answer_freeCtr : (s.answer a r).freeCtr = s.freeCtr := rfl
end

section
variable (res : Option Bool) (sg : Option (Bool × Bool))
@[simp] theorem State.writeFlags_nlimb : (s.writeFlags res sg).nlimb = s.nlimb := rfl
@[simp] theorem State.writeFlags_base : (s.writeFlags res sg).base = s.base := rfl
@[simp] theorem State.writeFlags_regs : (s.writeFlags res sg).regs = s.regs := rfl
@[simp] theorem State.writeFlags_seq : (s.writeFlags res sg).seq = s.seq := rfl
@[simp] theorem State.writeFlags_ie : (s.writeFlags res sg).ie = s.ie := rfl
@[simp] theorem State.writeFlags_cmdLast : (s.writeFlags res sg).cmdLast = s.cmdLast := rfl
@[simp] theorem State.writeFlags_rounds : (s.writeFlags res sg).rounds = s.rounds := rfl
@[simp] theorem State.writeFlags_rstN : (s.writeFlags res sg).rstN = s.rstN := rfl
@[simp] theorem State.writeFlags_port : (s.writeFlags res sg).port = s.port := rfl
@[simp] theorem State.writeFlags_agenda : (s.writeFlags res sg).agenda = s.agenda := rfl
@[simp] theorem State.writeFlags_freeCtr : (s.writeFlags res sg).freeCtr = s.freeCtr := rfl
@[simp] theorem State.writeFlags_none : s.writeFlags none none = s := rfl
@[simp] theorem State.writeFlags_result (b : Bool) :
    s.writeFlags (some b) none = { s with status := s.status.setResult b } := rfl
@[simp] theorem State.writeFlags_signs (x y : Bool) :
    s.writeFlags none (some (x, y)) = { s with status := s.status.setSigns x y } := rfl
end

/-! The flags of every status update. -/

section
variable (st : Status)
@[simp] theorem Status.atAcceptance_done : st.atAcceptance.done = false := rfl
@[simp] theorem Status.atAcceptance_result : st.atAcceptance.result = false := rfl
@[simp] theorem Status.atAcceptance_xneg : st.atAcceptance.xneg = false := rfl
@[simp] theorem Status.atAcceptance_yneg : st.atAcceptance.yneg = false := rfl
@[simp] theorem Status.atAcceptance_err : st.atAcceptance.err = ErrCode.none := rfl
@[simp] theorem Status.atAcceptance_lost : st.atAcceptance.lost = st.lost := rfl
@[simp] theorem Status.setDone_done : st.setDone.done = true := rfl
@[simp] theorem Status.setDone_result : st.setDone.result = st.result := rfl
@[simp] theorem Status.setDone_xneg : st.setDone.xneg = st.xneg := rfl
@[simp] theorem Status.setDone_yneg : st.setDone.yneg = st.yneg := rfl
@[simp] theorem Status.setDone_err : st.setDone.err = st.err := rfl
@[simp] theorem Status.setDone_lost : st.setDone.lost = st.lost := rfl
@[simp] theorem Status.setErr_done (c : ErrCode) : (st.setErr c).done = st.done := rfl
@[simp] theorem Status.setErr_result (c : ErrCode) : (st.setErr c).result = st.result := rfl
@[simp] theorem Status.setErr_xneg (c : ErrCode) : (st.setErr c).xneg = st.xneg := rfl
@[simp] theorem Status.setErr_yneg (c : ErrCode) : (st.setErr c).yneg = st.yneg := rfl
@[simp] theorem Status.setErr_err (c : ErrCode) : (st.setErr c).err = c := rfl
@[simp] theorem Status.setErr_lost (c : ErrCode) : (st.setErr c).lost = st.lost := rfl
@[simp] theorem Status.setResult_done (b : Bool) : (st.setResult b).done = st.done := rfl
@[simp] theorem Status.setResult_result (b : Bool) : (st.setResult b).result = b := rfl
@[simp] theorem Status.setResult_xneg (b : Bool) : (st.setResult b).xneg = st.xneg := rfl
@[simp] theorem Status.setResult_yneg (b : Bool) : (st.setResult b).yneg = st.yneg := rfl
@[simp] theorem Status.setResult_err (b : Bool) : (st.setResult b).err = st.err := rfl
@[simp] theorem Status.setResult_lost (b : Bool) : (st.setResult b).lost = st.lost := rfl
@[simp] theorem Status.setSigns_done (x y : Bool) : (st.setSigns x y).done = st.done := rfl
@[simp] theorem Status.setSigns_result (x y : Bool) : (st.setSigns x y).result = st.result := rfl
@[simp] theorem Status.setSigns_xneg (x y : Bool) : (st.setSigns x y).xneg = x := rfl
@[simp] theorem Status.setSigns_yneg (x y : Bool) : (st.setSigns x y).yneg = y := rfl
@[simp] theorem Status.setSigns_err (x y : Bool) : (st.setSigns x y).err = st.err := rfl
@[simp] theorem Status.setSigns_lost (x y : Bool) : (st.setSigns x y).lost = st.lost := rfl
@[simp] theorem Status.setLost_done : st.setLost.done = st.done := rfl
@[simp] theorem Status.setLost_result : st.setLost.result = st.result := rfl
@[simp] theorem Status.setLost_xneg : st.setLost.xneg = st.xneg := rfl
@[simp] theorem Status.setLost_yneg : st.setLost.yneg = st.yneg := rfl
@[simp] theorem Status.setLost_err : st.setLost.err = st.err := rfl
@[simp] theorem Status.setLost_lost : st.setLost.lost = true := rfl
@[simp] theorem Status.hostWrite_done (v : Word) : (st.hostWrite v).done = if v.getLsbD 1 then false else st.done := rfl
@[simp] theorem Status.hostWrite_result (v : Word) : (st.hostWrite v).result = st.result := rfl
@[simp] theorem Status.hostWrite_xneg (v : Word) : (st.hostWrite v).xneg = st.xneg := rfl
@[simp] theorem Status.hostWrite_yneg (v : Word) : (st.hostWrite v).yneg = st.yneg := rfl
@[simp] theorem Status.hostWrite_err (v : Word) : (st.hostWrite v).err = st.err := rfl
@[simp] theorem Status.hostWrite_lost (v : Word) : (st.hostWrite v).lost = if v.getLsbD 12 then false else st.lost := rfl
@[simp] theorem Status.zero_done : Status.zero.done = false := rfl
@[simp] theorem Status.zero_result : Status.zero.result = false := rfl
@[simp] theorem Status.zero_xneg : Status.zero.xneg = false := rfl
@[simp] theorem Status.zero_yneg : Status.zero.yneg = false := rfl
@[simp] theorem Status.zero_err : Status.zero.err = ErrCode.none := rfl
@[simp] theorem Status.zero_lost : Status.zero.lost = false := rfl
end

/-! The sequencer's views in its two states. -/

theorem State.busy_of_seq {s : State} {h : Held} (hs : s.seq = .busy h) : s.busy = true := by
  simp [State.busy, hs]

theorem State.busy_of_idle {s : State} (hs : s.seq = .idle) : s.busy = false := by
  simp [State.busy, hs]

theorem State.busy_iff {s : State} : s.busy = true ↔ ∃ h, s.seq = .busy h := by
  unfold State.busy
  cases s.seq <;> simp

theorem State.not_busy_iff {s : State} : s.busy = false ↔ s.seq = .idle := by
  unfold State.busy
  cases s.seq <;> simp

theorem State.source_of_busy {s : State} {h : Held} (hs : s.seq = .busy h) (r : RegIdx) :
    s.source r = h.src[r.val] := by
  simp [State.source, hs]

theorem State.sourceRounds_of_busy {s : State} {h : Held} (hs : s.seq = .busy h) :
    s.sourceRounds = h.rounds.toNat := by
  simp [State.sourceRounds, hs]

theorem State.responses_of_busy {s : State} {h : Held} (hs : s.seq = .busy h) :
    s.responses = h.responses := by
  simp [State.responses, hs]

/-- Reading the operand registers after one is written (spec/10_state.md R20: no aliases). -/
theorem State.reg_setReg (s : State) (r q : RegIdx) (v : Nat) :
    (s.setReg r v).reg q = if q = r then v else s.reg q := by
  unfold State.reg
  simp only [State.setReg_regs, Vector.getElem_set, Fin.ext_iff, eq_comm]

@[simp] theorem State.reg_setReg_self (s : State) (r : RegIdx) (v : Nat) : (s.setReg r v).reg r = v := by
  simp [State.reg_setReg]

theorem State.reg_setReg_ne (s : State) {r q : RegIdx} (h : q ≠ r) (v : Nat) :
    (s.setReg r v).reg q = s.reg q := by
  simp [State.reg_setReg, h]

theorem State.reg_congr {s t : State} (h : t.regs = s.regs) (r : RegIdx) : t.reg r = s.reg r := by
  simp [State.reg, h]

@[simp] theorem State.start_of_busy {s : State} (h : s.busy = true) (i : Instr) : s.start i = s := by
  obtain ⟨c, hc⟩ := State.busy_iff.mp h
  simp [State.start, hc]

theorem State.start_of_idle {s : State} (h : s.seq = .idle) (i : Instr) :
    s.start i = s.accept (encode i) := by
  simp [State.start, h]

/-- Where a command runs, a command is held. -/
theorem State.start_busy (s : State) (i : Instr) : (s.start i).busy = true := by
  unfold State.start
  cases h : s.seq <;> simp [State.busy, h]

end Sys2Proof.Machine
end

