-- ==== Sys2Proof/Laws/Ops.lean ====
section
/-! SUPPORT. What each shared operation of the sequencer can do, said once. -/

namespace Sys2Proof.Machine

/-- Writing a list of registers touches nothing but the register file. -/
theorem State.setRegs_eq (s : State) (ws : List (RegIdx × Nat)) :
    s.setRegs ws = { s with regs := (s.setRegs ws).regs } := by
  induction ws generalizing s with
  | nil => rfl
  | cons w ws ih =>
    obtain ⟨r, v⟩ := w
    simp only [State.setRegs]
    rw [ih]
    rfl

/-- A register that is not written keeps its value. -/
theorem State.reg_setRegs_of_notMem (s : State) (ws : List (RegIdx × Nat)) (q : RegIdx)
    (h : ∀ w ∈ ws, w.1 ≠ q) : (s.setRegs ws).reg q = s.reg q := by
  induction ws generalizing s with
  | nil => rfl
  | cons w ws ih =>
    obtain ⟨r, v⟩ := w
    have hr : q ≠ r := fun e => h (r, v) (by simp) e.symm
    simp only [State.setRegs]
    rw [ih _ (fun w hw => h w (by simp [hw])), State.reg_setReg_ne s hr]

/-- A written register's value comes from the list. -/
theorem State.reg_setRegs_cases (s : State) (ws : List (RegIdx × Nat)) (q : RegIdx) :
    (s.setRegs ws).reg q = s.reg q ∨ ∃ w ∈ ws, w.1 = q ∧ (s.setRegs ws).reg q = w.2 := by
  induction ws generalizing s with
  | nil => exact .inl rfl
  | cons w ws ih =>
    obtain ⟨r, v⟩ := w
    rcases ih (s.setReg r v) with h | ⟨w, hw, hq, h⟩
    · simp only [State.setRegs, h]
      by_cases hr : q = r
      · subst hr
        exact .inr ⟨(q, v), by simp, rfl, by simp⟩
      · exact .inl (State.reg_setReg_ne s hr v)
    · exact .inr ⟨w, by simp [hw], hq, h⟩

/-- What a written register holds depends on the list alone. -/
theorem State.reg_setRegs_congr (s t : State) (ws : List (RegIdx × Nat)) (q : RegIdx)
    (h : ∃ w ∈ ws, w.1 = q) : (s.setRegs ws).reg q = (t.setRegs ws).reg q := by
  induction ws generalizing s t with
  | nil => simp at h
  | cons w ws ih =>
    obtain ⟨r, v⟩ := w
    by_cases hq : ∃ w ∈ ws, w.1 = q
    · exact ih _ _ hq
    · have hn : ∀ w ∈ ws, w.1 ≠ q := fun w hw e => hq ⟨w, hw, e⟩
      have hr : r = q := by
        obtain ⟨w, hw, e⟩ := h
        rcases List.mem_cons.mp hw with rfl | hw
        · exact e
        · exact absurd ⟨w, hw, e⟩ hq
      simp only [State.setRegs]
      rw [State.reg_setRegs_of_notMem _ _ _ hn, State.reg_setRegs_of_notMem _ _ _ hn, hr]
      simp

/-- A completion changes the register file, the sequencer and STATUS, and nothing else (R24). -/
theorem State.complete_eq (s : State) (o : Outcome) :
    s.complete o =
      { s with regs := (s.complete o).regs, seq := .idle, status := (s.complete o).status } := by
  cases o with
  | error c => rfl
  | results ws res sg =>
    have h := State.setRegs_eq s ws
    simp only [State.complete]
    generalize s.setRegs ws = u at h
    cases u
    cases s
    cases h
    rfl

@[simp] theorem State.complete_seq (s : State) (o : Outcome) : (s.complete o).seq = .idle := by
  rw [State.complete_eq]

@[simp] theorem State.complete_nlimb (s : State) (o : Outcome) : (s.complete o).nlimb = s.nlimb := by
  rw [State.complete_eq]

@[simp] theorem State.complete_base (s : State) (o : Outcome) : (s.complete o).base = s.base := by
  rw [State.complete_eq]

@[simp] theorem State.complete_ie (s : State) (o : Outcome) : (s.complete o).ie = s.ie := by
  rw [State.complete_eq]

@[simp] theorem State.complete_cmdLast (s : State) (o : Outcome) : (s.complete o).cmdLast = s.cmdLast := by
  rw [State.complete_eq]

@[simp] theorem State.complete_rounds (s : State) (o : Outcome) : (s.complete o).rounds = s.rounds := by
  rw [State.complete_eq]

@[simp] theorem State.complete_rstN (s : State) (o : Outcome) : (s.complete o).rstN = s.rstN := by
  rw [State.complete_eq]

@[simp] theorem State.complete_port (s : State) (o : Outcome) : (s.complete o).port = s.port := by
  rw [State.complete_eq]

@[simp] theorem State.complete_agenda (s : State) (o : Outcome) : (s.complete o).agenda = s.agenda := by
  rw [State.complete_eq]

@[simp] theorem State.complete_freeCtr (s : State) (o : Outcome) : (s.complete o).freeCtr = s.freeCtr := by
  rw [State.complete_eq]

@[simp] theorem State.complete_error_regs (s : State) (c : ErrCode) :
    (s.complete (.error c)).regs = s.regs := rfl

@[simp] theorem State.complete_error_status (s : State) (c : ErrCode) :
    (s.complete (.error c)).status = (s.status.setErr c).setDone := rfl

@[simp] theorem State.complete_results_reg (s : State) (ws : List (RegIdx × Nat)) (res : Option Bool)
    (sg : Option (Bool × Bool)) (q : RegIdx) :
    (s.complete (.results ws res sg)).reg q = (s.setRegs ws).reg q := rfl

/-- DONE is set by every completion (R29). -/
@[simp] theorem State.complete_done (s : State) (o : Outcome) : (s.complete o).status.done = true := by
  cases o <;> rfl

/-- The flags of a completion with results (R24, R32). -/
theorem State.complete_results_status (s : State) (ws : List (RegIdx × Nat)) (res : Option Bool)
    (sg : Option (Bool × Bool)) :
    (s.complete (.results ws res sg)).status = (s.writeFlags res sg).status.setDone := by
  show ((s.setRegs ws).writeFlags res sg).status.setDone = _
  rw [State.setRegs_eq]
  rfl

/-- No completion changes LOST (R205). -/
@[simp] theorem State.complete_lost (s : State) (o : Outcome) : (s.complete o).status.lost = s.status.lost := by
  cases o with
  | error c => rfl
  | results ws res sg =>
    rw [State.complete_results_status]
    cases res <;> cases sg <;> rfl

/-- The request to the entropy source touches the held command alone (spec/43_miller_rabin.md R164). -/
theorem State.requestEntropy_eq (s : State) :
    s.requestEntropy = { s with seq := s.requestEntropy.seq } := by
  cases s with
  | mk nlimb base regs seq => cases seq <;> rfl

theorem State.requestEntropy_of_busy {s : State} {h : Held} (hs : s.seq = .busy h) :
    s.requestEntropy = { s with seq := .busy { h with requested := true } } := by
  simp [State.requestEntropy, hs]

/-- An entropy response touches the held command alone. -/
theorem State.entropyResponse_eq (s : State) (w : Word) :
    s.entropyResponse w = { s with seq := (s.entropyResponse w).seq } := by
  cases s with
  | mk nlimb base regs seq =>
    cases seq with
    | idle => rfl
    | busy c =>
      simp only [State.entropyResponse]
      split <;> rfl

/-- Making registers unspecified touches the register file and the model's own counter. -/
theorem State.scrambleAll_eq (s : State) (rs : List RegIdx) :
    s.scrambleAll rs =
      { s with regs := (s.scrambleAll rs).regs, freeCtr := (s.scrambleAll rs).freeCtr } := by
  induction rs generalizing s with
  | nil => rfl
  | cons r rs ih =>
    simp only [State.scrambleAll]
    rw [ih]
    rfl

/-- An unspecified register holds a free value below 2^W; the others are kept. -/
theorem State.reg_scrambleAll (s : State) (rs : List RegIdx) (q : RegIdx) :
    (q ∉ rs → (s.scrambleAll rs).reg q = s.reg q) ∧
    (q ∈ rs → ∃ c, s.freeCtr ≤ c ∧ (s.scrambleAll rs).reg q = Config.freeOperand c % 2 ^ s.width) := by
  induction rs generalizing s with
  | nil => simp [State.scrambleAll]
  | cons r rs ih =>
    have hreg : ∀ p, (s.scramble r).reg p =
        if p = r then Config.freeOperand s.freeCtr % 2 ^ s.width else s.reg p := fun p => by
      rw [← State.reg_setReg]
      rfl
    have hw : (s.scramble r).width = s.width := rfl
    obtain ⟨h1, h2⟩ := ih (s.scramble r)
    simp only [State.scrambleAll, List.mem_cons]
    refine ⟨fun h => ?_, fun h => ?_⟩
    · push Not at h
      rw [h1 h.2, hreg, if_neg h.1]
    · by_cases hq : q ∈ rs
      · obtain ⟨c, hc, e⟩ := h2 hq
        refine ⟨c, ?_, by rw [e, hw]⟩
        simp only [State.scramble_freeCtr] at hc
        omega
      · have hr : q = r := by simpa [hq] using h
        exact ⟨s.freeCtr, le_refl _, by rw [h1 hq, hreg, if_pos hr]⟩

/-- A soft reset leaves the control registers of R231, whatever it interrupts. -/
theorem State.softReset_eq (s : State) :
    s.softReset =
      { s with
        regs := s.softReset.regs, freeCtr := s.softReset.freeCtr, seq := .idle, ie := false,
        cmdLast := 0x00000000#32, status := Status.zero, rounds := 10#8 } := by
  unfold State.softReset
  cases h : s.seq with
  | idle => rfl
  | busy c =>
    simp only
    rw [State.scrambleAll_eq]
    rfl

theorem State.hardReset_eq (s : State) :
    s.hardReset =
      { s with
        regs := s.hardReset.regs, freeCtr := s.hardReset.freeCtr, seq := .idle, ie := false,
        cmdLast := 0x00000000#32, status := Status.zero, rounds := 10#8 } := by
  unfold State.hardReset
  rw [State.scrambleAll_eq]
  rfl

@[simp] theorem State.softReset_nlimb (s : State) : s.softReset.nlimb = s.nlimb := by
  rw [State.softReset_eq]

@[simp] theorem State.softReset_base (s : State) : s.softReset.base = s.base := by
  rw [State.softReset_eq]

@[simp] theorem State.softReset_seq (s : State) : s.softReset.seq = .idle := by
  rw [State.softReset_eq]

@[simp] theorem State.softReset_ie (s : State) : s.softReset.ie = false := by
  rw [State.softReset_eq]

@[simp] theorem State.softReset_cmdLast (s : State) : s.softReset.cmdLast = 0x00000000#32 := by
  rw [State.softReset_eq]

@[simp] theorem State.softReset_status (s : State) : s.softReset.status = Status.zero := by
  rw [State.softReset_eq]

@[simp] theorem State.softReset_rounds (s : State) : s.softReset.rounds = 10#8 := by
  rw [State.softReset_eq]

@[simp] theorem State.softReset_rstN (s : State) : s.softReset.rstN = s.rstN := by
  rw [State.softReset_eq]

@[simp] theorem State.softReset_port (s : State) : s.softReset.port = s.port := by
  rw [State.softReset_eq]

@[simp] theorem State.softReset_agenda (s : State) : s.softReset.agenda = s.agenda := by
  rw [State.softReset_eq]

@[simp] theorem State.hardReset_nlimb (s : State) : s.hardReset.nlimb = s.nlimb := by
  rw [State.hardReset_eq]

@[simp] theorem State.hardReset_base (s : State) : s.hardReset.base = s.base := by
  rw [State.hardReset_eq]

@[simp] theorem State.hardReset_seq (s : State) : s.hardReset.seq = .idle := by
  rw [State.hardReset_eq]

@[simp] theorem State.hardReset_ie (s : State) : s.hardReset.ie = false := by
  rw [State.hardReset_eq]

@[simp] theorem State.hardReset_cmdLast (s : State) : s.hardReset.cmdLast = 0x00000000#32 := by
  rw [State.hardReset_eq]

@[simp] theorem State.hardReset_status (s : State) : s.hardReset.status = Status.zero := by
  rw [State.hardReset_eq]

@[simp] theorem State.hardReset_rounds (s : State) : s.hardReset.rounds = 10#8 := by
  rw [State.hardReset_eq]

@[simp] theorem State.hardReset_rstN (s : State) : s.hardReset.rstN = s.rstN := by
  rw [State.hardReset_eq]

@[simp] theorem State.hardReset_port (s : State) : s.hardReset.port = s.port := by
  rw [State.hardReset_eq]

@[simp] theorem State.hardReset_agenda (s : State) : s.hardReset.agenda = s.agenda := by
  rw [State.hardReset_eq]

/-- The reset pin's effect while it is low, or driven low (R230). -/
theorem State.driveReset_of_low (s : State) (level : Bool) (h : level = false ∨ s.rstN = false) :
    s.driveReset level = { s.hardReset with rstN := level, port := none } := by
  unfold State.driveReset
  rcases h with rfl | h
  · rfl
  · simp [h]

/-- The reset pin's two effects. -/
theorem State.driveReset_cases (s : State) (level : Bool) :
    (level = true ∧ s.rstN = true ∧ s.driveReset level = s) ∨
      s.driveReset level = { s.hardReset with rstN := level, port := none } := by
  unfold State.driveReset
  cases level <;> cases h : s.rstN <;> simp

/-- Every operand register is in range after a soft reset, if it was before. -/
theorem State.softReset_reg (s : State) (q : RegIdx) :
    s.softReset.reg q = s.reg q ∨
      ∃ c, s.freeCtr ≤ c ∧ s.softReset.reg q = Config.freeOperand c % 2 ^ s.width := by
  unfold State.softReset
  cases h : s.seq with
  | idle => exact .inl rfl
  | busy c =>
    by_cases hq : q ∈ wordDests c.word
    · exact .inr ((State.reg_scrambleAll s _ q).2 hq)
    · exact .inl ((State.reg_scrambleAll s _ q).1 hq)

theorem State.hardReset_reg (s : State) (q : RegIdx) :
    ∃ c, s.freeCtr ≤ c ∧ s.hardReset.reg q = Config.freeOperand c % 2 ^ s.width :=
  (State.reg_scrambleAll s allRegs q).2 (by revert q; decide)

/-- What a step of one agent followed by another can answer. -/
theorem andThen_eq_next {o : StepOutcome} {f : State → StepOutcome} {t : State}
    (h : andThen o f = .next t) : ∃ u, o = .next u ∧ f u = .next t := by
  cases o with
  | next u => exact ⟨u, rfl, h⟩
  | fault r => exact absurd h (by simp [andThen])
  | refused r => exact absurd h (by simp [andThen])

/-- Writing registers looks at no other field. -/
theorem State.setRegs_with (s : State) (ws : List (RegIdx × Nat)) (st : Status) (p : Option Transaction)
    (rounds : BitVec 8) (ctr : Nat) :
    ({ s with status := st, port := p, rounds := rounds, freeCtr := ctr } : State).setRegs ws =
      { s.setRegs ws with status := st, port := p, rounds := rounds, freeCtr := ctr } := by
  induction ws generalizing s with
  | nil => rfl
  | cons w ws ih => exact ih (s.setReg w.1 w.2)

/-- A completion looks at no port, round count, LOST, DONE or free-value counter: it commutes with changing them
(R24, R25). -/
theorem State.complete_with (s : State) (o : Outcome) (done lost : Bool) (p : Option Transaction)
    (rounds : BitVec 8) (ctr : Nat) :
    ({ s with
        status := { s.status with done := done, lost := lost }
        port := p, rounds := rounds, freeCtr := ctr } : State).complete o =
      { s.complete o with
        status := { (s.complete o).status with lost := lost }
        port := p, rounds := rounds, freeCtr := ctr } := by
  cases o with
  | error c => rfl
  | results ws res sg =>
    simp only [State.complete, State.setRegs_with]
    have h : (s.setRegs ws).status = s.status := by rw [State.setRegs_eq]
    cases res <;> cases sg <;>
      simp [State.writeFlags, State.finish, Status.setDone, Status.setResult, Status.setSigns, h]

end Sys2Proof.Machine
end

