-- ==== Sys2Proof/Laws/Commands.lean ====
section
/-! SUPPORT. Every command at once: what `exec` answers, through one summary of the commands' rules. -/

namespace Sys2Proof.Machine

/-- The rule of each command over the operands latched in `u`; `none` where it has no outcome yet. -/
def ruleOutcome (u : State) : Instr → Option Outcome
  | .modmul rd ra rb rm => some (modmulOutcome rd (u.source ra) (u.source rb) (u.source rm))
  | .modexp rd ra rb rm => some (modexpOutcome rd (u.source ra) (u.source rb) (u.source rm))
  | .egcd rd ra rb => egcdOutcome u.width rd (u.source ra) (u.source rb)
  | .modinv rd ra rb => some (modinvOutcome rd (u.source ra) (u.source rb))
  | .mrround ra rb => some (mrroundOutcome (u.source ra) (u.source rb))
  | .mrtest ra => mrtestOutcome (mrTest (u.source ra) u.sourceRounds u.responses)

/-- Where a command's rule has an outcome, `exec` completes with it. -/
theorem exec_of_outcome {i : Instr} {s : State} {o : Outcome} (h : ruleOutcome (s.start i) i = some o) :
    exec i s = .next ((s.start i).complete o) := by
  cases i <;> simp only [ruleOutcome, Option.some.injEq] at h <;>
    simp only [exec, execModmul, execModexp, execEgcd, execModinv, execMrround, execMrtest, h]

/-- `exec` answers a next state in two ways only: a completion with the rule's outcome, or MRTEST's wait. -/
theorem exec_cases {i : Instr} {s t : State} (h : exec i s = .next t) :
    (∃ o, ruleOutcome (s.start i) i = some o ∧ t = (s.start i).complete o) ∨
    (∃ ra, i = .mrtest ra ∧ ruleOutcome (s.start i) i = none ∧ t = (s.start i).requestEntropy) := by
  cases ho : ruleOutcome (s.start i) i with
  | some o =>
    rw [exec_of_outcome ho] at h
    exact .inl ⟨o, rfl, by simpa using h.symm⟩
  | none =>
    cases i with
    | egcd rd ra rb =>
      simp only [ruleOutcome] at ho
      simp [exec, execEgcd, ho] at h
    | mrtest ra =>
      simp only [ruleOutcome] at ho
      simp only [exec, execMrtest, ho, Host.Outcome.next.injEq] at h
      exact .inr ⟨ra, rfl, rfl, h.symm⟩
    | modmul => simp [ruleOutcome] at ho
    | modexp => simp [ruleOutcome] at ho
    | modinv => simp [ruleOutcome] at ho
    | mrround => simp [ruleOutcome] at ho

/-- A rule writes exactly the command's destinations, or nothing where it gives an error (R21, R204); RESULT is written by
MRROUND and MRTEST, the signs by EGCD (R32). -/
theorem ruleOutcome_results {u : State} {i : Instr} {ws : List (RegIdx × Nat)} {res : Option Bool}
    {sg : Option (Bool × Bool)} (h : ruleOutcome u i = some (.results ws res sg)) :
    ws.map Prod.fst = dests i ∧
    (res ≠ none → sg = none ∧ ((∃ ra rb, i = .mrround ra rb) ∨ ∃ ra, i = .mrtest ra)) ∧
    (sg ≠ none → ∃ rd ra rb, i = .egcd rd ra rb) := by
  cases i with
  | modmul rd ra rb rm =>
    simp only [ruleOutcome, modmulOutcome] at h
    split at h <;> simp_all [dests]
    obtain ⟨rfl, rfl, rfl⟩ := h
    simp
  | modexp rd ra rb rm =>
    simp only [ruleOutcome, modexpOutcome] at h
    split at h <;> simp_all [dests]
    obtain ⟨rfl, rfl, rfl⟩ := h
    simp
  | egcd rd ra rb =>
    simp only [ruleOutcome, egcdOutcome] at h
    split at h
    · cases h
    · split at h
      · cases h
      · split at h
        · simp only [Option.some.injEq, Outcome.results.injEq] at h
          obtain ⟨rfl, rfl, rfl⟩ := h
          simp [dests]
        · cases h
  | modinv rd ra rb =>
    simp only [ruleOutcome, modinvOutcome] at h
    split at h
    · cases h
    · split at h
      · cases h
      · simp only [Option.some.injEq, Outcome.results.injEq] at h
        obtain ⟨rfl, rfl, rfl⟩ := h
        simp [dests]
  | mrround ra rb =>
    simp only [ruleOutcome, mrroundOutcome] at h
    split at h
    · cases h
    · split at h
      · cases h
      · simp only [Option.some.injEq, Outcome.results.injEq] at h
        obtain ⟨rfl, rfl, rfl⟩ := h
        simp [dests]
  | mrtest ra =>
    simp only [ruleOutcome, mrtestOutcome] at h
    split at h
    · simp only [Option.some.injEq, Outcome.results.injEq] at h
      obtain ⟨rfl, rfl, rfl⟩ := h
      simp [dests]
    · simp only [Option.some.injEq, Outcome.results.injEq] at h
      obtain ⟨rfl, rfl, rfl⟩ := h
      simp [dests]
    · cases h

/-- Every value a rule writes fits an operand register, where the latched operands do (R21, R203). -/
theorem ruleOutcome_values_lt {u : State} {i : Instr} {ws : List (RegIdx × Nat)} {res : Option Bool}
    {sg : Option (Bool × Bool)} (h : ruleOutcome u i = some (.results ws res sg))
    (hsrc : ∀ r, u.source r < 2 ^ u.width) : ∀ w ∈ ws, w.2 < 2 ^ u.width := by
  cases i with
  | modmul rd ra rb rm =>
    simp only [ruleOutcome, modmulOutcome] at h
    split at h
    · cases h
    · next hm =>
      simp only [Option.some.injEq, Outcome.results.injEq] at h
      obtain ⟨rfl, -, -⟩ := h
      intro w hw
      obtain rfl := List.mem_singleton.mp hw
      exact lt_trans (mulMod_lt _ _ hm) (hsrc rm)
  | modexp rd ra rb rm =>
    simp only [ruleOutcome, modexpOutcome] at h
    split at h
    · cases h
    · next hm =>
      simp only [Option.some.injEq, Outcome.results.injEq] at h
      obtain ⟨rfl, -, -⟩ := h
      intro w hw
      obtain rfl := List.mem_singleton.mp hw
      show powMod _ _ _ < _
      rw [powMod_eq_pow _ _ _ (Nat.pos_of_ne_zero hm)]
      exact lt_trans (Nat.mod_lt _ (Nat.pos_of_ne_zero hm)) (hsrc rm)
  | egcd rd ra rb =>
    simp only [ruleOutcome, egcdOutcome] at h
    split at h
    · cases h
    · split at h
      · cases h
      · next h0 =>
        have hg := (extGcd_bezout (u.source ra) (u.source rb)).2
        split at h
        · next hf =>
          simp only [Option.some.injEq, Outcome.results.injEq] at h
          obtain ⟨rfl, -, -⟩ := h
          simp only [fits, Bool.and_eq_true, decide_eq_true_eq] at hf
          have hgl : (extGcd (u.source ra) (u.source rb)).2.2 < 2 ^ u.width := by
            rw [hg]
            by_cases ha : u.source ra = 0
            · rw [ha, Nat.gcd_zero_left]
              exact hsrc rb
            · exact lt_of_le_of_lt (Nat.gcd_le_left _ (Nat.pos_of_ne_zero ha)) (hsrc ra)
          intro w hw
          simp only [List.mem_cons, List.not_mem_nil, or_false] at hw
          rcases hw with rfl | rfl | rfl
          · exact hf.1
          · exact hf.2
          · exact hgl
        · cases h
  | modinv rd ra rb =>
    simp only [ruleOutcome, modinvOutcome] at h
    split at h
    · cases h
    · next hm =>
      split at h
      · cases h
      · next d hd =>
        simp only [Option.some.injEq, Outcome.results.injEq] at h
        obtain ⟨rfl, -, -⟩ := h
        intro w hw
        obtain rfl := List.mem_singleton.mp hw
        exact lt_trans (modInv_eq_some (Nat.pos_of_ne_zero hm) hd).1 (hsrc ra)
  | mrround ra rb =>
    have := (ruleOutcome_results h).1
    simp only [dests, List.map_eq_nil_iff] at this
    simp [this]
  | mrtest ra =>
    have := (ruleOutcome_results h).1
    simp only [dests, List.map_eq_nil_iff] at this
    simp [this]

end Sys2Proof.Machine
end

