-- ==== Sys2Proof/Laws/Encoding.lean ====
section
/-! SUPPORT. The fields of a command word as numbers (spec/30_encoding.md R81). -/

namespace Sys2Proof

theorem toNat_append_eq {n m : Nat} (x : BitVec n) (y : BitVec m) :
    (x ++ y).toNat = x.toNat * 2 ^ m + y.toNat := by
  rw [BitVec.toNat_append, ← Nat.shiftLeft_add_eq_or_of_lt y.isLt, Nat.shiftLeft_eq]

/-- A packed word as a number, field by field. -/
theorem packWord_toNat (op : BitVec 4) (rd ra rb rm : RegIdx) :
    (packWord op rd ra rb rm).toNat =
      op.toNat + 16 * rd.val + 128 * ra.val + 1024 * rb.val + 8192 * rm.val := by
  have h : ∀ r : RegIdx, (regBits r).toNat = r.val := fun _ => rfl
  show (0#16 ++ regBits rm ++ regBits rb ++ regBits ra ++ regBits rd ++ op : BitVec (16 + 3 + 3 + 3 + 3 + 4)).toNat = _
  simp only [toNat_append_eq, h, BitVec.toNat_ofNat]
  omega

theorem opField_toNat (v : Word) : (opField v).toNat = v.toNat % 16 := by
  simp [opField, BitVec.extractLsb'_toNat]

theorem rdField_val (v : Word) : (rdField v).val = v.toNat / 16 % 8 := by
  show (v.extractLsb' 4 3).toNat = _
  rw [BitVec.extractLsb'_toNat, Nat.shiftRight_eq_div_pow]

theorem raField_val (v : Word) : (raField v).val = v.toNat / 128 % 8 := by
  show (v.extractLsb' 7 3).toNat = _
  rw [BitVec.extractLsb'_toNat, Nat.shiftRight_eq_div_pow]

theorem rbField_val (v : Word) : (rbField v).val = v.toNat / 1024 % 8 := by
  show (v.extractLsb' 10 3).toNat = _
  rw [BitVec.extractLsb'_toNat, Nat.shiftRight_eq_div_pow]

theorem rmField_val (v : Word) : (rmField v).val = v.toNat / 8192 % 8 := by
  show (v.extractLsb' 13 3).toNat = _
  rw [BitVec.extractLsb'_toNat, Nat.shiftRight_eq_div_pow]

theorem zeroField_toNat (v : Word) : (zeroField v).toNat = v.toNat / 65536 % 65536 := by
  rw [zeroField, BitVec.extractLsb'_toNat, Nat.shiftRight_eq_div_pow]

/-- The fields of a packed word are what was packed (R81). -/
theorem packWord_fields (op : BitVec 4) (rd ra rb rm : RegIdx) :
    opField (packWord op rd ra rb rm) = op ∧ rdField (packWord op rd ra rb rm) = rd ∧
    raField (packWord op rd ra rb rm) = ra ∧ rbField (packWord op rd ra rb rm) = rb ∧
    rmField (packWord op rd ra rb rm) = rm ∧ zeroField (packWord op rd ra rb rm) = 0 := by
  have h1 := rd.isLt
  have h2 := ra.isLt
  have h3 := rb.isLt
  have h4 := rm.isLt
  have h5 := op.isLt
  refine ⟨BitVec.eq_of_toNat_eq ?_, Fin.ext ?_, Fin.ext ?_, Fin.ext ?_, Fin.ext ?_, BitVec.eq_of_toNat_eq ?_⟩
  · rw [opField_toNat, packWord_toNat]
    omega
  · rw [rdField_val, packWord_toNat]
    omega
  · rw [raField_val, packWord_toNat]
    omega
  · rw [rbField_val, packWord_toNat]
    omega
  · rw [rmField_val, packWord_toNat]
    omega
  · rw [zeroField_toNat, packWord_toNat]
    show _ = 0
    omega

/-- A word with a zero high half is its five fields packed (R81). -/
theorem packWord_of_fields (v : Word) (h : zeroField v = 0) :
    packWord (opField v) (rdField v) (raField v) (rbField v) (rmField v) = v := by
  have hz : (zeroField v).toNat = 0 := by rw [h]; rfl
  have hv := v.isLt
  rw [zeroField_toNat] at hz
  refine BitVec.eq_of_toNat_eq ?_
  rw [packWord_toNat, opField_toNat, rdField_val, raField_val, rbField_val, rmField_val]
  omega

end Sys2Proof
end

