-- ==== Sys2Proof/Laws/HostPort.lean ====
section
/-! SUPPORT. The register map's laws, and what a host access can do, said once. -/

namespace Sys2Proof.Machine

@[simp] theorem locate_param : locate 0x0000 = .param := rfl
@[simp] theorem locate_ctrl : locate 0x0004 = .ctrl := rfl
@[simp] theorem locate_cmd : locate 0x0008 = .cmd := rfl
@[simp] theorem locate_status : locate 0x000C = .status := rfl
@[simp] theorem locate_config : locate 0x0010 = .config := rfl

/-- The operand window's part of the map (R53). -/
theorem locate_window {off : Nat} (h1 : 0x1000 ≤ off) (h2 : off < 0x3000) :
    locate off = .limb (Fin.ofNat 8 ((off - 0x1000) / 0x400)) ((off - 0x1000) % 0x400 / 4) := by
  unfold locate
  simp only [show off ≠ 0 by omega, show off ≠ 4 by omega, show off ≠ 8 by omega, show off ≠ 12 by omega,
    show off ≠ 16 by omega, if_false]
  rw [if_pos ⟨h1, h2⟩]

/-- The reserved ranges of the map (R51). -/
theorem locate_reserved {off : Nat} (h : (0x0014 ≤ off ∧ off ≤ 0x0FFF) ∨ 0x3000 ≤ off) :
    locate off = .reserved := by
  unfold locate
  simp only [show off ≠ 0 by omega, show off ≠ 4 by omega, show off ≠ 8 by omega, show off ≠ 12 by omega,
    show off ≠ 16 by omega, if_false]
  rw [if_neg (by omega)]

/-- Byte `b` of limb slot `j` of register `i` stands in that slot (R53, R54). -/
theorem locate_slot (i : RegIdx) (t : Nat) (ht : t < 0x400) :
    locate (0x1000 + 0x400 * i.val + t) = .limb i (t / 4) := by
  have hi := i.isLt
  rw [locate_window (by omega) (by omega)]
  have h1 : (0x1000 + 0x400 * i.val + t - 0x1000) / 0x400 = i.val := by omega
  have h2 : (0x1000 + 0x400 * i.val + t - 0x1000) % 0x400 = t := by omega
  have h3 : Fin.ofNat 8 i.val = i := Fin.ext (by simp)
  rw [h1, h2, h3]

theorem locate_limbOffset (i : RegIdx) (j : Nat) (hj : j < 256) : locate (limbOffset i j) = .limb i j := by
  unfold limbOffset
  rw [locate_slot i (4 * j) (by omega), Nat.mul_div_cancel_left j (by omega)]

theorem limbOffset_lt (i : RegIdx) (j : Nat) (hj : j < 256) : limbOffset i j < 0x4000 := by
  have := i.isLt
  unfold limbOffset
  omega

/-- A legal read of a word of the region (R55). -/
theorem State.hostAccess_memRead (s : State) {off : Nat} (h : off < 0x4000) (ha : off % 4 = 0) :
    s.hostAccess (s.memRead off) =
      .next ((s.afterRead (locate off)).answer (s.memRead off) (.okayRead (s.readValue (locate off)))) := by
  simp [State.hostAccess, State.inRegion, State.memRead, State.regionAccess, legalAccess, regionSize, h, ha]

/-- A legal write of a word of the region (R55). -/
theorem State.hostAccess_memWrite (s : State) (v : Word) {off : Nat} (h : off < 0x4000) (ha : off % 4 = 0) :
    s.hostAccess (s.memWrite off v) =
      .next ((s.writeLoc v (locate off)).answer (s.memWrite off v) .okayWrite) := by
  simp [State.hostAccess, State.inRegion, State.memWrite, State.regionAccess, legalAccess, regionSize, h, ha]

/-- The three ways the port answers an access of the region (R55). -/
theorem State.hostAccess_cases {s t : State} {a : Access} (h : s.hostAccess a = .next t) :
    s.inRegion a.addr = true ∧
    (t = s.answer a .error ∨
      (a.write = true ∧ legalAccess a (a.addr - s.base) = true ∧
        t = (s.writeLoc a.wdata (locate (a.addr - s.base))).answer a .okayWrite) ∨
      (a.write = false ∧ legalAccess a (a.addr - s.base) = true ∧
        t = (s.afterRead (locate (a.addr - s.base))).answer a
          (.okayRead (s.readValue (locate (a.addr - s.base)))))) := by
  unfold State.hostAccess at h
  split at h
  · next hr =>
    refine ⟨hr, ?_⟩
    obtain rfl : s.regionAccess a = t := by simpa using h
    unfold State.regionAccess
    by_cases hl : legalAccess a (a.addr - s.base) = true
    · by_cases hw : a.write = true
      · simp [hl, hw]
      · simp [hl, hw]
    · simp [hl]
  · cases h

/-- What a write can do, at any register (R27, R28, R30, R31, R53, R56, R59). -/
theorem State.writeLoc_cases (s : State) (v : Word) (l : Loc) :
    s.writeLoc v l = s ∨ s.writeLoc v l = s.softReset ∨
    (∃ b, s.writeLoc v l = { s with ie := b }) ∨
    (s.busy = true ∧ s.writeLoc v l = { s with status := s.status.setLost }) ∨
    (s.busy = false ∧ l = .cmd ∧ s.writeLoc v l = s.accept v) ∨
    s.writeLoc v l = s.writeStatus v ∨ s.writeLoc v l = s.writeConfig v ∨
    (s.busy = false ∧ ∃ i j, j < s.nlimb ∧ s.writeLoc v l = s.setReg i (setLimb (s.reg i) j v)) := by
  cases l with
  | param => exact .inl rfl
  | reserved => exact .inl rfl
  | ctrl =>
    simp only [State.writeLoc, State.writeCtrl]
    split
    · exact .inr (.inl rfl)
    · exact .inr (.inr (.inl ⟨_, rfl⟩))
  | cmd =>
    simp only [State.writeLoc, State.writeCmd]
    split
    · next hb => exact .inr (.inr (.inr (.inl ⟨hb, rfl⟩)))
    · next hb => exact .inr (.inr (.inr (.inr (.inl ⟨by simpa using hb, trivial, rfl⟩))))
  | status => exact .inr (.inr (.inr (.inr (.inr (.inl rfl)))))
  | config => exact .inr (.inr (.inr (.inr (.inr (.inr (.inl rfl))))))
  | limb i j =>
    simp only [State.writeLoc, State.writeLimb]
    split
    · next hb => exact .inr (.inr (.inr (.inl ⟨hb, rfl⟩)))
    · next hb =>
      split
      · next hj =>
        exact .inr (.inr (.inr (.inr (.inr (.inr (.inr ⟨by simpa using hb, i, j, hj, rfl⟩))))))
      · exact .inl rfl

/-- A read moves the model's own counter and nothing else (R58). -/
theorem State.afterRead_eq (s : State) (l : Loc) :
    s.afterRead l = { s with freeCtr := (s.afterRead l).freeCtr } := by
  cases l <;> simp only [State.afterRead]
  split <;> rfl

/-- No access changes the parameters or the agenda. -/
theorem State.hostAccess_params {s t : State} {a : Access} (h : s.hostAccess a = .next t) :
    t.nlimb = s.nlimb ∧ t.base = s.base ∧ t.rstN = s.rstN ∧ t.agenda = s.agenda := by
  obtain ⟨-, rfl | ⟨-, -, rfl⟩ | ⟨-, -, rfl⟩⟩ := State.hostAccess_cases h
  · exact ⟨rfl, rfl, rfl, rfl⟩
  · simp only [State.answer_nlimb, State.answer_base, State.answer_rstN, State.answer_agenda]
    rcases s.writeLoc_cases a.wdata (locate (a.addr - s.base)) with
      e | e | ⟨b, e⟩ | ⟨-, e⟩ | ⟨-, -, e⟩ | e | e | ⟨-, i, j, -, e⟩ <;> rw [e]
    · exact ⟨rfl, rfl, rfl, rfl⟩
    · rw [State.softReset_eq]
      exact ⟨rfl, rfl, rfl, rfl⟩
    all_goals exact ⟨rfl, rfl, rfl, rfl⟩
  · rw [State.afterRead_eq]
    exact ⟨rfl, rfl, rfl, rfl⟩

end Sys2Proof.Machine
end

