-- ==== Sys2Proof/Laws/PerInstr.lean ====
section
/-! SUPPORT. Families of statements about a command as syntax, one lemma per constructor. -/

namespace Sys2Proof.Laws.EncodedFields

/-- The word of a command carries its opcode in `[3:0]` and zero in `[31:16]` (spec/30_encoding.md R81, R82, R84). -/
def Statement (i : Instr) : Prop := opField (encode i) = i.opcode ∧ zeroField (encode i) = 0

theorem modmul (rd ra rb rm : RegIdx) : Statement (.modmul rd ra rb rm) :=
  ⟨(packWord_fields _ _ _ _ _).1, (packWord_fields _ _ _ _ _).2.2.2.2.2⟩

theorem modexp (rd ra rb rm : RegIdx) : Statement (.modexp rd ra rb rm) :=
  ⟨(packWord_fields _ _ _ _ _).1, (packWord_fields _ _ _ _ _).2.2.2.2.2⟩

theorem egcd (rd ra rb : RegIdx) : Statement (.egcd rd ra rb) :=
  ⟨(packWord_fields _ _ _ _ _).1, (packWord_fields _ _ _ _ _).2.2.2.2.2⟩

theorem modinv (rd ra rb : RegIdx) : Statement (.modinv rd ra rb) :=
  ⟨(packWord_fields _ _ _ _ _).1, (packWord_fields _ _ _ _ _).2.2.2.2.2⟩

theorem mrround (ra rb : RegIdx) : Statement (.mrround ra rb) :=
  ⟨(packWord_fields _ _ _ _ _).1, (packWord_fields _ _ _ _ _).2.2.2.2.2⟩

theorem mrtest (ra : RegIdx) : Statement (.mrtest ra) :=
  ⟨(packWord_fields _ _ _ _ _).1, (packWord_fields _ _ _ _ _).2.2.2.2.2⟩

end Sys2Proof.Laws.EncodedFields
end

