-- ==== Sys2Proof/Laws/Sequencer.lean ====
section
/-! SUPPORT. What a step of each agent can do, said once. -/

namespace Sys2Proof.Machine

/-- The decoder and R86's check agree (spec/30_encoding.md R86). -/
theorem decodeWord_error_of_not_legal {v : Word} (h : legal v = false) : ∃ e, decodeWord v = .error e := by
  cases hd : decodeWord v with
  | error e => exact ⟨e, rfl⟩
  | ok i =>
    exfalso
    unfold decodeWord at hd
    unfold legal at h
    split at hd
    · cases hd
    · next hz =>
      rw [if_neg hz] at h
      split at hd <;> simp_all [Fin.lt_def, Fin.le_def]
      · split at hd <;> simp_all
      · split at hd <;> simp_all
      · split at hd <;> simp_all
        split at hd <;> simp_all

/-- The sequencer's step on a held command: an illegal word's error, or the command's meaning (R24, R203). -/
theorem sequencerStep_cases {s t : State} {h : Held} (hs : s.seq = .busy h) (hst : sequencerStep s = .next t) :
    ((∃ e, decodeWord h.word = .error e) ∧ t = s.raiseError .illegalCommand) ∨
      ∃ i, decodeWord h.word = .ok i ∧ exec i s = .next t := by
  simp only [sequencerStep, hs, runWord] at hst
  cases hd : decodeWord h.word with
  | ok i =>
    simp only [hd] at hst
    exact .inr ⟨i, rfl, hst⟩
  | error e =>
    simp only [hd] at hst
    exact .inl ⟨⟨e, rfl⟩, by simpa using hst.symm⟩

/-- The sequencer's step on a held command that decodes. -/
theorem sequencerStep_of_holds {s : State} {i : Instr} (h : s.holds i) : sequencerStep s = exec i s := by
  obtain ⟨c, hc, hd⟩ := h
  simp [sequencerStep, hc, runWord, hd]

/-- When IDLE the sequencer does nothing (spec/60_exceptions.md R216). -/
theorem sequencerStep_of_idle {s : State} (h : s.seq = .idle) : sequencerStep s = .next s := by
  simp [sequencerStep, h]

/-- The outcome of a completing sequencer step depends on the held command and the operand width alone (R25): every state
that agrees on them completes with the same outcome. -/
theorem sequencerStep_complete {s t : State} (hb : s.busy = true) (hx : sequencerStep s = .next t)
    (ht : t.seq = .idle) :
    ∃ o, t = s.complete o ∧
      ∀ s' : State, s'.seq = s.seq → s'.nlimb = s.nlimb → sequencerStep s' = .next (s'.complete o) := by
  obtain ⟨c, hs⟩ := State.busy_iff.mp hb
  rcases sequencerStep_cases hs hx with ⟨⟨e, he⟩, rfl⟩ | ⟨i, hd, hx'⟩
  · refine ⟨.error .illegalCommand, rfl, fun s' h1 _ => ?_⟩
    simp only [sequencerStep, h1, hs, runWord, he]
    rfl
  · rcases exec_cases hx' with ⟨o, ho, rfl⟩ | ⟨ra, rfl, -, rfl⟩
    · rw [State.start_of_busy hb] at ho ⊢
      refine ⟨o, rfl, fun s' h1 h2 => ?_⟩
      have hs' : s'.seq = .busy c := h1.trans hs
      have hb' := State.busy_of_seq hs'
      have hsrc : ∀ r, s'.source r = s.source r := fun r => by
        rw [State.source_of_busy hs, State.source_of_busy hs']
      have hw : s'.width = s.width := congrArg (32 * ·) h2
      have hr : ruleOutcome s' i = some o := by
        rw [← ho]
        cases i <;> simp only [ruleOutcome, hsrc, hw, State.sourceRounds_of_busy hs,
          State.sourceRounds_of_busy hs', State.responses_of_busy hs, State.responses_of_busy hs']
      have := exec_of_outcome (s := s') (by rw [State.start_of_busy hb']; exact hr)
      rw [State.start_of_busy hb'] at this
      simpa only [sequencerStep, hs', runWord, hd] using this
    · rw [State.start_of_busy hb, State.requestEntropy_of_busy hs] at ht
      cases ht

/-- A sequencer step that does not complete is MRTEST's wait (spec/43_miller_rabin.md R164): it only leaves a request
outstanding, and every state that agrees on the held command and the operand width waits too. -/
theorem sequencerStep_wait {s t : State} (hb : s.busy = true) (hx : sequencerStep s = .next t)
    (ht : t.busy = true) :
    t = s.requestEntropy ∧
      ∀ s' : State, s'.seq = s.seq → s'.nlimb = s.nlimb → sequencerStep s' = .next s'.requestEntropy := by
  obtain ⟨c, hs⟩ := State.busy_iff.mp hb
  rcases sequencerStep_cases hs hx with ⟨-, rfl⟩ | ⟨i, hd, hx'⟩
  · cases ht
  · rcases exec_cases hx' with ⟨o, -, rfl⟩ | ⟨ra, rfl, ho, rfl⟩
    · simp [State.busy] at ht
    · rw [State.start_of_busy hb] at ho ⊢
      refine ⟨rfl, fun s' h1 _ => ?_⟩
      have hs' : s'.seq = .busy c := h1.trans hs
      simp only [ruleOutcome, State.source_of_busy hs, State.sourceRounds_of_busy hs,
        State.responses_of_busy hs] at ho
      simp only [sequencerStep, hs', runWord, hd, exec, execMrtest,
        State.start_of_busy (State.busy_of_seq hs'), State.source_of_busy hs',
        State.sourceRounds_of_busy hs', State.responses_of_busy hs', ho]

/-- Which transactions R209 puts before the sequencer's step: a legal write to CMD, or one of a word with bit 1 set to CTRL
or STATUS. -/
theorem State.hostWins_iff (s : State) (a : Access) :
    s.hostWins a = true ↔
      s.base ≤ a.addr ∧ a.addr < s.base + 0x4000 ∧ a.size = 4 ∧ a.bytemask = 0b1111#4 ∧ a.write = true ∧
      (a.addr = s.base + 0x0008 ∨
        (a.addr = s.base + 0x0004 ∨ a.addr = s.base + 0x000C) ∧ a.wdata.getLsbD 1 = true) := by
  unfold State.hostWins State.inRegion legalAccess regionSize
  generalize ho : a.addr - s.base = off
  simp only [Bool.and_eq_true, decide_eq_true_eq]
  constructor
  · rintro ⟨⟨⟨⟨h1, h2⟩, ⟨h3, h4⟩, -⟩, h6⟩, h7⟩
    refine ⟨h1, h2, h3, h4, h6, ?_⟩
    unfold locate at h7
    split_ifs at h7 <;> first | cases h7 | skip
    · exact .inr ⟨.inl (by omega), h7⟩
    · exact .inl (by omega)
    · exact .inr ⟨.inr (by omega), h7⟩
  · rintro ⟨h1, h2, h3, h4, h6, h7 | ⟨h7 | h7, h8⟩⟩
    · obtain rfl : off = 8 := by omega
      exact ⟨⟨⟨⟨h1, h2⟩, ⟨h3, h4⟩, rfl⟩, h6⟩, rfl⟩
    · obtain rfl : off = 4 := by omega
      exact ⟨⟨⟨⟨h1, h2⟩, ⟨h3, h4⟩, rfl⟩, h6⟩, h8⟩
    · obtain rfl : off = 12 := by omega
      exact ⟨⟨⟨⟨h1, h2⟩, ⟨h3, h4⟩, rfl⟩, h6⟩, h8⟩

theorem State.hostWins_memWrite (s : State) (off : Nat) (v : Word) :
    s.hostWins (s.memWrite off v) = true ↔
      off < 0x4000 ∧ (off = 0x0008 ∨ (off = 0x0004 ∨ off = 0x000C) ∧ v.getLsbD 1 = true) := by
  rw [State.hostWins_iff]
  simp [State.memWrite]

/-- No read wins (R209). -/
theorem State.hostWins_memRead (s : State) (off : Nat) : s.hostWins (s.memRead off) = false := by
  rw [Bool.eq_false_iff, Ne, State.hostWins_iff]
  simp [State.memRead]

/-- Beside a transaction that wins, the host comes first (R209). -/
theorem sameCycleStep_of_hostWins {s : State} {a : Access} (first : Bool) (hb : s.busy = true)
    (h : s.hostWins a = true) : sameCycleStep s a first = andThen (s.hostAccess a) sequencerStep := by
  simp [sameCycleStep, hb, h]

/-- Beside any other transaction, the event says which comes first (R209). -/
theorem sameCycleStep_of_free {s : State} {a : Access} (first : Bool) (hb : s.busy = true)
    (h : s.hostWins a = false) :
    sameCycleStep s a first =
      if first then andThen (sequencerStep s) (fun t => t.hostAccess a)
      else andThen (s.hostAccess a) sequencerStep := by
  simp [sameCycleStep, hb, h]

/-- With no command held before the cycle, the transaction acts alone. -/
theorem sameCycleStep_of_not_busy {s : State} {a : Access} (first : Bool) (hb : s.busy = false) :
    sameCycleStep s a first = s.hostAccess a := by
  simp [sameCycleStep, hb]

end Sys2Proof.Machine
end

