-- ==== Sys2Proof/Tests/Slice0.lean ====
section
/-! SUPPORT. Small tests: expected results are those of spec/95_test_vectors.md, worked from its rules, and witnesses that
the statements' hypotheses can be met. Nothing here is an obligation. -/

namespace Sys2Proof.Tests

open Sys2Proof Sys2Proof.Machine

/-- A unit with these operand registers, IDLE (NLIMB = 1). -/
def unit (regs : Vector Nat 8) : State := { State.reset with regs := regs }

/-- That unit with the command word `v` accepted. -/
def running (v : Word) (regs : Vector Nat 8) : State := (unit regs).accept v

/-- The unit with an MRTEST word accepted and these entropy responses received. -/
def testing (v : Word) (regs : Vector Nat 8) (rounds : BitVec 8) (rs : List Word) : State :=
  { unit regs with seq := .busy ⟨v, regs, rounds, false, rs⟩, cmdLast := v }

/-- STATUS and one register after the step, where there is a next state. -/
def after (o : StepOutcome) (r : RegIdx) : Option (Word × Nat) :=
  match o with
  | .next t => some (t.statusWord, t.reg r)
  | .fault _ => none
  | .refused _ => none

/-- The state after the step satisfies a check. -/
def reaches (o : StepOutcome) (p : State → Bool) : Bool :=
  match o with
  | .next t => p t
  | .fault _ => false
  | .refused _ => false

/-! ### WellFormed -/

theorem test_wf_refuses_egcd_rd_6 : (Instr.egcd 6 0 1).wf = false := by decide

theorem test_wf_refuses_egcd_rd_7 : (Instr.egcd 7 0 0).wf = false := by decide

theorem test_wf_accepts_egcd_rd_5 : (Instr.egcd 5 7 7).wf = true := by decide

/-! ### Decode: words written out from R81 and R90 (spec/95_test_vectors.md §2) -/

theorem test_decode_modmul : decodeWord 0b0000000000000000_000_010_001_011_0001#32 = .ok (.modmul 3 1 2 0) := by
  decide

theorem test_decode_modmul_all_r7 : decodeWord 0x0000FFF1#32 = .ok (.modmul 7 7 7 7) := by decide

theorem test_decode_modsqr : decodeWord 0x00000491#32 = .ok (Instr.modsqr 1 1 0) := by decide

theorem test_decode_modexp : decodeWord 0b0000000000000000_011_001_000_010_0010#32 = .ok (.modexp 2 0 1 3) := by
  decide

theorem test_decode_modexp_r90 : decodeWord 0x00006652#32 = .ok (.modexp 5 4 1 3) := by decide

theorem test_decode_egcd : decodeWord 0b0000000000000000_000_001_000_011_0011#32 = .ok (.egcd 3 0 1) := by decide

theorem test_decode_modinv : decodeWord 0b0000000000000000_000_001_000_010_0100#32 = .ok (.modinv 2 0 1) := by
  decide

theorem test_decode_mrround : decodeWord 0b0000000000000000_000_010_001_000_0101#32 = .ok (.mrround 1 2) := by
  decide

theorem test_decode_mrtest : decodeWord 0b0000000000000000_000_000_001_000_0110#32 = .ok (.mrtest 1) := by decide

theorem test_decode_refusals :
    decodeWord 0x00000000#32 = .error .reservedOpcode ∧ decodeWord 0x00000007#32 = .error .reservedOpcode ∧
    decodeWord 0x0000000F#32 = .error .reservedOpcode ∧ decodeWord 0x00010001#32 = .error .highBits ∧
    decodeWord 0x00000463#32 = .error .rdOutOfRange ∧ decodeWord 0x00002003#32 = .error .rmNotZero ∧
    decodeWord 0x00002004#32 = .error .rmNotZero ∧ decodeWord 0x00000015#32 = .error .rdNotZero ∧
    decodeWord 0x00000406#32 = .error .rbNotZero := by decide

theorem test_decode_bytes :
    decodeBytes [0xB1#8, 0x08#8, 0x00#8, 0x00#8, 0xAA#8] = .ok (.modmul 3 1 2 0, [0xAA#8]) ∧
    decodeBytes [0xB1#8, 0x08#8, 0x00#8] = .error .truncated := by decide

theorem test_decode_table_word :
    decodeTableWord 32 0x8B1 = some (.modmul 3 1 2 0) ∧ decodeTableWord 32 0x463 = none := by decide

theorem test_encode_words :
    encode (.modmul 3 1 2 0) = 0x000008B1#32 ∧ encode (.modexp 2 0 1 3) = 0x00006422#32 ∧
    encode (.egcd 3 0 1) = 0x00000433#32 ∧ encode (.modinv 2 0 1) = 0x00000424#32 ∧
    encode (.mrround 1 2) = 0x00000885#32 ∧ encode (.mrtest 0) = 0x00000006#32 := by decide

theorem test_asm : (Instr.modexp 5 4 1 3).asm = "MODEXP R5, R4, R1, R3" := by decide

/-! ### The commands (spec/95_test_vectors.md §2.1–§2.6) -/

theorem test_modmul_full_product :
    after (step (running 0x000008B1#32 #v[0xFFFFFFFB, 0xFFFFFFFF, 0xFFFFFFFF, 0, 0, 0, 0, 0])) 3 =
      some (0x00000002#32, 16) := by decide

theorem test_modmul_zero_modulus :
    after (step (running 0x000008B1#32 #v[0, 3, 4, 77, 0, 0, 0, 0])) 3 = some (0x00000102#32, 77) := by
  decide

theorem test_modexp_known_vector :
    after (step (running 0x00006422#32 #v[4, 13, 0, 497, 0, 0, 0, 0])) 2 = some (0x00000002#32, 445) := by
  decide

theorem test_modexp_aliased :
    after (step (running 0x00000012#32 #v[3, 9, 0, 0, 0, 0, 0, 0])) 1 = some (0x00000002#32, 0) := by
  decide

theorem test_egcd_240_46 :
    reaches (step (running 0x00000433#32 #v[240, 46, 0, 0, 0, 0, 0, 0])) (fun t =>
      decide (t.statusWord = 0x0000000A#32 ∧ t.reg 3 = 9 ∧ t.reg 4 = 47 ∧ t.reg 5 = 2)) = true := by
  decide

theorem test_egcd_aliased_destinations :
    reaches (step (running 0x00001FD3#32 #v[0, 0, 0, 0, 0, 4, 4, 77])) (fun t =>
      decide (t.statusWord = 0x00000002#32 ∧ t.reg 5 = 0 ∧ t.reg 6 = 1 ∧ t.reg 7 = 77)) = true := by
  decide

theorem test_modinv_3120 :
    after (step (running 0x00000424#32 #v[3120, 65537, 0, 0, 0, 0, 0, 0])) 2 = some (0x00000002#32, 2753) := by
  decide

theorem test_modinv_no_inverse :
    after (step (running 0x00000424#32 #v[4, 2, 0xDEAD, 0, 0, 0, 0, 0])) 2 = some (0x00000202#32, 0xDEAD) := by
  decide

theorem test_mrround_fails :
    after (step (running 0x00000885#32 #v[0, 561, 2, 0, 0, 0, 0, 0])) 1 = some (0x00000002#32, 561) := by
  decide

theorem test_mrround_strong_liar :
    after (step (running 0x00000885#32 #v[0, 561, 50, 0, 0, 0, 0, 0])) 1 = some (0x00000006#32, 561) := by
  decide

theorem test_mrtest_three_rounds_of_97 :
    after (step (testing 0x00000006#32 #v[97, 0, 0, 0, 0, 0, 0, 0] 3#8 [5#32, 0x7F#32, 0x80#32, 0xFFFFFFDD#32])) 0 =
      some (0x00000006#32, 97) := by decide

theorem test_mrtest_waits :
    reaches (step (testing 0x00000006#32 #v[97, 0, 0, 0, 0, 0, 0, 0] 3#8 [5#32, 0x7F#32])) (fun t =>
      t.busy && t.requested) = true := by decide

theorem test_illegal_word :
    after (step (running 0x00000463#32 #v[1, 2, 3, 4, 5, 6, 7, 8])) 6 = some (0x00000302#32, 7) := by
  decide

theorem test_sampler :
    drawWitness 97 [0x00000005#32] = some (7, []) ∧ drawWitness 97 [0x0000007F#32] = none ∧
    drawWitness 97 [0xFFFFFFDD#32] = some (95, []) ∧ drawWitness 31 [0x0000001B#32] = some (29, []) := by
  decide

theorem test_power_calls : powModCalls 4 13 497 = 7 ∧ powModCalls 2 0xFFFFFFFF 0xFFFFFFFB = 64 := by
  decide

/-- A placed word runs as the first step after reset (R0..R7 are 0 there, so MODMUL finds a zero modulus). -/
theorem test_first_step_after_reset :
    after (step (State.reset.withFetchWord 32 0x000008B1)) 3 = some (0x00000102#32, 0) := by decide

/-! ### The interface (spec/95_test_vectors.md §2.7) -/

theorem test_param_reads : (State.resetWith 2 0).paramWord = 0x01080002#32 := by decide

theorem test_status_clear :
    ((unit (Vector.replicate 8 0)).status.setDone.setLost.setSigns true false).hostWrite 0xFFFFFFFF#32 =
      { Status.zero with xneg := true } := by decide

theorem test_lost_command :
    reaches ((running 0x00000006#32 (Vector.replicate 8 0)).hostAccess
        ((running 0x00000006#32 (Vector.replicate 8 0)).memWrite 0x0008 1#32)) (fun t =>
      decide (t.statusWord = 0x00001001#32 ∧ t.cmdLast = 0x00000006#32)) = true := by decide

theorem test_second_limb :
    reaches ((State.resetWith 2 0).hostAccess ((State.resetWith 2 0).memWrite 0x1804 0x3A#32)) (fun t =>
      decide (t.reg 2 = 0x0000003A_00000000)) = true := by decide

theorem test_narrow_access :
    reaches (State.reset.hostAccess ⟨0x0008, true, 1#32, 1, 0b0001#4⟩) (fun t =>
      decide (t.busy = false ∧ t.port = some ⟨⟨0x0008, true, 1#32, 1, 0b0001#4⟩, .error⟩)) = true := by
  decide

theorem test_soft_reset_keeps_sources :
    ((running 0x00006422#32 #v[4, 13, 5, 497, 0, 0, 0, 0]).softReset).reg 3 = 497 := by decide

theorem test_done_in_the_cycle_of_completion :
    reaches (sameCycleStep (running 0x000008B1#32 #v[10, 7, 9, 0, 0, 0, 0, 0])
        ((running 0x000008B1#32 #v[10, 7, 9, 0, 0, 0, 0, 0]).memWrite 0x000C 2#32) true) (fun t =>
      decide (t.statusWord = 0x00000002#32 ∧ t.reg 3 = 3)) = true := by decide

/-- R209: a STATUS read beside a completion sees the state on the side the event names. -/
theorem test_status_read_in_the_cycle_of_completion :
    reaches (sameCycleStep (running 0x000008B1#32 #v[10, 7, 9, 0, 0, 0, 0, 0])
        (State.reset.memRead 0x000C) true) (fun t =>
      decide (t.port = some ⟨State.reset.memRead 0x000C, .okayRead 0x00000002#32⟩)) = true ∧
    reaches (sameCycleStep (running 0x000008B1#32 #v[10, 7, 9, 0, 0, 0, 0, 0])
        (State.reset.memRead 0x000C) false) (fun t =>
      decide (t.port = some ⟨State.reset.memRead 0x000C, .okayRead 0x00000001#32⟩ ∧ t.reg 3 = 3)) = true := by
  decide

/-! ### Witnesses: the statements' hypotheses can be met -/

/-- A running MODMUL with operands 7, 9 and modulus 10. -/
abbrev mulState : State := running 0x000008B1#32 #v[10, 7, 9, 0, 0, 0, 0, 0]

theorem witness_DecodeOfEncode : (Instr.egcd 5 7 7).wf = true := by decide

theorem witness_EncodeOfDecode : decodeWord 0x00001FD3#32 = .ok (.egcd 5 7 7) := by decide

theorem witness_LegalWordsAndIllegalCompletion :
    State.reset.busy = false ∧
    (∃ h, (running 0x00000463#32 (Vector.replicate 8 0)).seq = .busy h ∧ legal h.word = false) :=
  ⟨by decide, _, rfl, by decide⟩

theorem witness_StepRunsTheHeldCommand :
    mulState.rstN = true ∧ mulState.holds (.modmul 3 1 2 0) ∧ mulState.agenda = [] ∧
    ({ mulState with agenda := [.sequencer] } : State).holds (.modmul 3 1 2 0) ∧
    decodeTableWord 32 0x8B1 = some (.modmul 3 1 2 0) :=
  ⟨rfl, ⟨_, rfl, by decide⟩, rfl, ⟨_, rfl, by decide⟩, by decide⟩

theorem witness_StepPerformsTheNextEvent :
    State.reset.rstN = true ∧ State.reset.seq = .idle ∧
    ({ State.reset with agenda := [.entropy 0#32] } : State).agenda = .entropy 0#32 :: [] ∧
    ({ mulState with agenda := [.sameCycle (mulState.memRead 0xC) true] } : State).agenda =
      .sameCycle (mulState.memRead 0xC) true :: [] ∧
    ({ running 0x00000463#32 (Vector.replicate 8 0) with agenda := [.sequencer] } : State).agenda =
      .sequencer :: [] ∧
    (∃ h, (running 0x00000463#32 (Vector.replicate 8 0)).seq = .busy h ∧ legal h.word = false) :=
  ⟨rfl, rfl, rfl, rfl, rfl, _, rfl, by decide⟩

theorem witness_IdleExecAcceptsFirst : State.reset.seq = .idle := by decide

theorem witness_ModmulResult :
    mulState.busy = true ∧ mulState.source 0 ≠ 0 ∧ mulState.source 3 = 0 := by decide

theorem witness_ModexpResult :
    (running 0x00006422#32 #v[4, 13, 0, 497, 0, 0, 0, 0]).busy = true ∧
    (running 0x00006422#32 #v[4, 13, 0, 497, 0, 0, 0, 0]).source 3 ≠ 0 ∧
    (running 0x00006422#32 #v[4, 13, 0, 0, 0, 0, 0, 0]).source 3 = 0 := by decide

/-- The largest operand W = 32 admits. -/
theorem witness_EgcdResult :
    (running 0x00000433#32 #v[0xFFFFFFFF, 1, 0, 0, 0, 0, 0, 0]).busy = true ∧ (5 : RegIdx) ≤ 5 ∧
    1 ≤ (running 0x00000433#32 #v[0xFFFFFFFF, 1, 0, 0, 0, 0, 0, 0]).nlimb ∧
    (running 0x00000433#32 #v[0xFFFFFFFF, 1, 0, 0, 0, 0, 0, 0]).source 0 <
      2 ^ (running 0x00000433#32 #v[0xFFFFFFFF, 1, 0, 0, 0, 0, 0, 0]).width ∧
    (running 0x00000433#32 #v[0xFFFFFFFF, 1, 0, 0, 0, 0, 0, 0]).source 1 ≠ 0 ∧
    ((running 0x00000433#32 #v[0, 0, 0, 0, 0, 0, 0, 0]).source 0 = 0 ∧
      (running 0x00000433#32 #v[0, 0, 0, 0, 0, 0, 0, 0]).source 1 = 0) := by decide

theorem witness_EgcdWithBadRdIsIllegal : mulState.busy = true ∧ (5 : RegIdx) < 6 ∧ (5 : RegIdx) < 7 := by decide

theorem witness_ModinvResult :
    (running 0x00000424#32 #v[1, 0, 0, 0, 0, 0, 0, 0]).busy = true ∧
    (running 0x00000424#32 #v[1, 0, 0, 0, 0, 0, 0, 0]).source 0 ≠ 0 ∧
    Nat.gcd ((running 0x00000424#32 #v[1, 0, 0, 0, 0, 0, 0, 0]).source 1)
      ((running 0x00000424#32 #v[1, 0, 0, 0, 0, 0, 0, 0]).source 0) = 1 ∧
    Nat.gcd ((running 0x00000424#32 #v[4, 2, 0, 0, 0, 0, 0, 0]).source 1)
      ((running 0x00000424#32 #v[4, 2, 0, 0, 0, 0, 0, 0]).source 0) ≠ 1 ∧
    (running 0x00000424#32 #v[0, 5, 0, 0, 0, 0, 0, 0]).source 0 = 0 := by decide

/-- n = 5 admits the witnesses 2 and 3 alone. -/
theorem witness_MrroundResult :
    (running 0x00000885#32 #v[0, 5, 3, 0, 0, 0, 0, 0]).busy = true ∧
    5 ≤ (running 0x00000885#32 #v[0, 5, 3, 0, 0, 0, 0, 0]).source 1 ∧
    (running 0x00000885#32 #v[0, 5, 3, 0, 0, 0, 0, 0]).source 1 % 2 = 1 ∧
    2 ≤ (running 0x00000885#32 #v[0, 5, 3, 0, 0, 0, 0, 0]).source 2 ∧
    (running 0x00000885#32 #v[0, 5, 3, 0, 0, 0, 0, 0]).source 2 ≤
      (running 0x00000885#32 #v[0, 5, 3, 0, 0, 0, 0, 0]).source 1 - 2 ∧
    (running 0x00000885#32 #v[0, 5, 4, 0, 0, 0, 0, 0]).source 1 - 2 <
      (running 0x00000885#32 #v[0, 5, 4, 0, 0, 0, 0, 0]).source 2 := by decide

theorem witness_MrtestResult_prefilter : prefilter 9 = .composite ∧ prefilter 29 = .probablyPrime := by decide

theorem witness_MrtestResult_all_pass :
    prefilter 97 = .proceed ∧ drawWitnesses 97 1 [5#32] = some ([7], []) ∧ mrRoundPass 97 7 = true := by
  decide

theorem witness_MrtestResult_first_fails :
    prefilter 1457 = .proceed ∧ drawWitnesses 1457 (0 + 1) [0#32] = some ([] ++ [2], []) ∧
    mrRoundPass 1457 2 = false := by decide

theorem witness_MrtestResult_waits :
    prefilter 97 = .proceed ∧ drawWitnesses 97 0 [] = some ([], []) ∧ drawWitness 97 [] = none := by
  decide

theorem witness_ZeroRoundsGiveProbablyPrime :
    (testing 0x00000006#32 #v[961, 0, 0, 0, 0, 0, 0, 0] 0#8 []).busy = true ∧
    (testing 0x00000006#32 #v[961, 0, 0, 0, 0, 0, 0, 0] 0#8 []).sourceRounds = 0 ∧
    prefilter 961 = .proceed ∧ prefilter 100 = .composite ∧ prefilter 29 = .probablyPrime := by
  decide

theorem witness_PowModCallCount : (1 : Nat) < 2 := by decide

theorem witness_BezoutMagnitudesAreBounded : ¬ ((1 : Nat) = 0 ∧ (0 : Nat) = 0) := by decide

theorem witness_ModInvIsTheInverse :
    (1 : Nat) ≤ 1 ∧ modInv 1 0 = some 0 ∧ modInv 4 2 = none := by decide

theorem witness_PrefilterIsRight :
    prefilter 4 = .composite ∧ prefilter 2 = .probablyPrime ∧ prefilter 31 = .proceed ∧ (30 : Nat) < 31 := by decide

theorem witness_RoundPassInPowers :
    (5 : Nat) ≤ 5 ∧ 5 % 2 = 1 ∧ 2 ≤ 3 ∧ 3 ≤ 5 - 2 ∧ mrRoundPass 5 3 = true ∧ mrRoundPass 9 2 = false := by
  decide

theorem witness_PrimePassesEveryRound : Nat.Prime 5 ∧ 5 ≤ 5 ∧ 2 ≤ 3 ∧ 3 ≤ 5 - 2 :=
  ⟨by norm_num, by decide, by decide, by decide⟩

theorem witness_MrtestNeverRejectsAPrime :
    (testing 0x00000006#32 #v[97, 0, 0, 0, 0, 0, 0, 0] 1#8 [5#32]).busy = true ∧
    Nat.Prime ((testing 0x00000006#32 #v[97, 0, 0, 0, 0, 0, 0, 0] 1#8 [5#32]).source 0) ∧
    reaches (exec (.mrtest 0) (testing 0x00000006#32 #v[97, 0, 0, 0, 0, 0, 0, 0] 1#8 [5#32])) (fun t =>
      decide (t.seq = .idle)) = true := by
  refine ⟨by decide, ?_, by decide⟩
  show Nat.Prime 97
  norm_num

theorem witness_SamplerStaysInRange :
    (31 : Nat) ≤ 31 ∧ drawWitness 31 [0x1C#32, 0x1B#32] = some (29, []) := by decide

theorem witness_SamplerReachesEveryWitness : (31 : Nat) ≤ 31 ∧ ∀ a ∈ [2, 29], 2 ≤ a ∧ a ≤ 31 - 2 := by decide

theorem witness_DecidedTestStaysDecided : mrTest 1457 10 [0#32] ≠ .needsEntropy := by decide

/-- Each of the three codes is reached from a held command with ERR = NONE. -/
theorem witness_ErrorCodeOfACompletion :
    reaches (sequencerStep (running 0x00000463#32 #v[1, 2, 3, 4, 5, 6, 7, 8])) (fun t =>
      decide (t.status.err = .illegalCommand)) = true ∧
    reaches (sequencerStep (running 0x00000433#32 #v[0, 0, 3, 4, 5, 6, 7, 8])) (fun t =>
      decide (t.status.err = .invalidArgument)) = true ∧
    reaches (sequencerStep (running 0x00000424#32 #v[4, 2, 3, 4, 5, 6, 7, 8])) (fun t =>
      decide (t.status.err = .noInverse)) = true := by decide

theorem witness_FailedCommandWritesNothing :
    (running 0x00000424#32 #v[4, 2, 0, 0, 0, 0, 0, 0]).status.err = .none ∧
    reaches (sequencerStep (running 0x00000424#32 #v[4, 2, 0, 0, 0, 0, 0, 0])) (fun t =>
      decide (t.status.err ≠ .none)) = true := by decide

theorem witness_ErrorStaysUntilAcceptanceOrReset :
    State.reset.seq = .idle ∧ reaches (step State.reset) (fun t => decide (t = State.reset)) = true := by
  decide

theorem witness_FlagsBelongToTheirCommands :
    reaches (exec (.mrround 1 2) (running 0x00000885#32 #v[0, 5, 3, 0, 0, 0, 0, 0])) (fun t =>
      decide (t.status.result ≠ false)) = true ∧
    reaches (exec (.egcd 3 0 1) (running 0x00000433#32 #v[240, 46, 0, 0, 0, 0, 0, 0])) (fun t =>
      decide (t.status.xneg ≠ false)) = true := by decide

theorem witness_CommandFrame :
    reaches (exec (.modmul 3 1 2 0) mulState) (fun _ => decide ((0 : RegIdx) ∉ dests (.modmul 3 1 2 0))) = true := by
  decide

theorem witness_CommandRegionFrame :
    reaches (exec (.modmul 3 1 2 0) mulState) (fun t => decide (t.seq = .idle)) = true ∧
    (0x2000 : Nat) < 0x4000 ∧ 0x10 ≤ 0x2000 ∧
    ∀ d ∈ dests (.modmul 3 1 2 0), 0x2000 < limbOffset d 0 ∨ limbOffset d 0 + 0x400 ≤ 0x2000 := by decide

theorem witness_CompletionIsOneStep :
    mulState.busy = true ∧ reaches (sequencerStep mulState) (fun t => decide (t.seq = .idle)) = true := by
  decide

theorem witness_CommandComputesFromLatchedValues :
    mulState.busy = true ∧ mulState.status.err = .none ∧
    reaches (exec (.modmul 3 1 2 0) mulState) (fun t => decide (t.status.err = .none)) = true ∧
    reaches (mulState.hostAccess (mulState.memWrite 0x0010 5#32)) (fun t => t.busy) = true := by decide

theorem reset_inv_of_running : mulState.Inv := by
  refine ⟨by decide, by decide, by decide, by decide, ?_, fun h => absurd rfl h, fun h => ?_, fun h => ?_⟩
  · intro h hs
    obtain rfl : (⟨0x000008B1#32, #v[10, 7, 9, 0, 0, 0, 0, 0], 10#8, false, []⟩ : Held) = h := by
      simpa [running, State.accept, unit, State.reset, State.resetWith] using hs
    exact ⟨rfl, rfl, rfl, rfl, rfl, rfl, rfl, by simp, rfl⟩
  · cases h
  · cases h

theorem witness_HeldCommandCompletes :
    mulState.Inv ∧ ∃ h, mulState.seq = .busy h ∧ ∀ ra, decodeWord h.word ≠ .ok (.mrtest ra) :=
  ⟨reset_inv_of_running, _, rfl, by decide⟩

theorem witness_CtrlRegister : (1#32).getLsbD 1 = false ∧ (3#32).getLsbD 1 = true := by decide

theorem witness_CmdRegister :
    mulState.busy = true ∧ State.reset.busy = false ∧ legal 0x00000000#32 = false := by decide

theorem witness_ConfigRegister : mulState.busy = true := by decide

theorem witness_InterruptLine :
    (2#32).getLsbD 1 = true ∧ (2#32).getLsbD 0 = false ∧ mulState.busy = true ∧
    State.reset.inRegion 0x0008 = true ∧ legalAccess ⟨0x0008, true, 1#32, 1, 0b0001#4⟩ 0x0008 = false := by decide

theorem witness_RegisterMap : (0x2FFC : Nat) < 0x4000 ∧ 0x2FFC % 4 = 0 ∧ locate 0x2FFC = .limb 7 255 ∧
    locate 0x3000 = .reserved ∧ locate 0x1000 = .limb 0 0 ∧ locate 0x0FFC = .reserved := by decide

theorem witness_LimbAccess :
    (State.resetWith 256 0).busy = false ∧ (State.resetWith 256 0).nlimb ≤ 256 ∧ 255 < (State.resetWith 256 0).nlimb := by
  decide

theorem witness_OperandIsItsLimbs : (0xFFFFFFFF : Nat) < 2 ^ (32 * 1) := by decide

theorem witness_ByteLanes :
    (0x3FFC : Nat) % 4 = 0 ∧ 3 < 4 ∧ 7 < 8 ∧ State.reset.busy = false ∧ State.reset.nlimb ≤ 256 ∧
    3 < 4 * State.reset.nlimb := by decide

theorem witness_LegalAndIllegalAccess :
    State.reset.base ≤ 0x3FFC ∧ 0x3FFC < State.reset.base + 0x4000 ∧ (0x3FFC - State.reset.base) % 4 = 0 ∧
    (0x3FFE - State.reset.base) % 4 ≠ 0 := by decide

theorem witness_ReservedOffsetsReadZero :
    (0x0FFC : Nat) % 4 = 0 ∧ 0x0014 ≤ 0x0FFC ∧ 0x0FFC ≤ 0x0FFF ∧ State.reset.busy = false ∧
    State.reset.nlimb ≤ 1 ∧ 255 < 256 := by decide

theorem witness_WindowWhileBusy :
    mulState.busy = true ∧ 0x2FFC % 4 = 0 ∧ 0x1000 ≤ 0x2FFC ∧ 0x2FFC ≤ 0x2FFF := by decide

theorem witness_ReadsHaveNoSideEffect :
    (State.reset.memRead 0x000C).write = false ∧
    reaches (State.reset.hostAccess (State.reset.memRead 0x000C)) (fun t =>
      decide (t.port = some ⟨State.reset.memRead 0x000C, .okayRead 0#32⟩)) = true := by decide

theorem witness_LimbWriteFrame :
    State.reset.busy = false ∧ State.reset.nlimb ≤ 256 ∧ 0 < 256 ∧ limbOffset 7 0 + 4 ≤ 0x3FFF ∧
    reaches (State.reset.hostAccess (State.reset.memWrite (limbOffset 7 0) 9#32)) (fun t =>
      decide (t.reg 7 = 9)) = true := by decide

/-- A unit held in hard reset. -/
abbrev inReset : State := { State.reset with rstN := false, agenda := [.host (State.reset.memRead 0)] }

theorem witness_HardReset :
    inReset.rstN = false ∧ inReset.agenda = .host (State.reset.memRead 0) :: [] ∧
    mulState.rstN = true ∧ (mulState.driveReset false).busy = false := by decide

theorem witness_SoftReset :
    (2#32).getLsbD 1 = true ∧ State.reset.seq = .idle ∧
    ∃ h, mulState.seq = .busy h ∧ 3 ∈ wordDests h.word ∧ 0 ∉ wordDests h.word :=
  ⟨by decide, by decide, _, rfl, by decide, by decide⟩

theorem witness_FirstCommandAfterResetIsAccepted :
    ∃ u, u = mulState.softReset ∨ (inReset.rstN = false ∧ u = inReset.driveReset true) := ⟨_, .inl rfl⟩

theorem witness_SameCycleOrder :
    mulState.busy = true ∧ (2#32).getLsbD 1 = true ∧
    reaches (sequencerStep mulState) (fun t => decide (t.seq = .idle)) = true ∧
    mulState.hostWins (mulState.memRead 0xC) = false ∧ mulState.nlimb ≤ 256 ∧ 0 < mulState.nlimb ∧
    State.reset.busy = false ∧ mulState.hostWins (mulState.memWrite 0x8 0#32) = true ∧
    (testing 0x00000006#32 #v[97, 0, 0, 0, 0, 0, 0, 0] 3#8 []).busy = true ∧
    reaches (sequencerStep (testing 0x00000006#32 #v[97, 0, 0, 0, 0, 0, 0, 0] 3#8 [])) (fun t =>
      t.busy) = true := by decide

theorem witness_EntropyRequestAndResponse :
    ∃ h, mulState.seq = .busy h ∧ h.requested = false ∧ ({ h with requested := true } : Held).requested = true ∧
      mrTest 97 1 [] = .needsEntropy := ⟨_, rfl, rfl, rfl, by decide⟩

theorem witness_ResetHasTheInvariant : (1 : Nat) ≤ 256 ∧ 256 ≤ 256 ∧ 0x4000 % 0x4000 = 0 := by decide

theorem witness_StepKeepsTheInvariant :
    mulState.Inv ∧ reaches (step mulState) (fun t => decide (t.seq = .idle)) = true :=
  ⟨reset_inv_of_running, by decide⟩

theorem witness_ObservedIdleIsIdle :
    ∃ s : State, s.observedIdle ∧ s.seq = .idle ∧ s.runEnded :=
  ⟨State.reset.answer (State.reset.memRead 0xC) (.okayRead 0#32),
    ⟨_, _, rfl, rfl, by decide⟩, rfl, rfl, _, _, rfl, rfl, by decide⟩

theorem witness_StepStopsOnlyOutsideTheRegion :
    mulState.Inv ∧ State.reset.base + 0x4000 ≤ 0x4000 := ⟨reset_inv_of_running, by decide⟩

theorem witness_StepKeepsTheParameters :
    reaches (step mulState) (fun t => decide (t.nlimb = 1)) = true := by decide

end Sys2Proof.Tests
end

/-! The equations of a step, and what the steps of its agents can change. -/

namespace Sys2Proof.Machine

/-! ### The step, by the head of the agenda and the level of `rst_n` -/

theorem step_of_nil {s : State} (hr : s.rstN = true) (ha : s.agenda = []) : step s = sequencerStep s := by
  simp [step, agendaStep, ha, hr]

theorem step_of_cons {s : State} {e : Event} {rest : List Event} (hr : s.rstN = true)
    (ha : s.agenda = e :: rest) : step s = eventStep { s with agenda := rest } e := by
  simp [step, agendaStep, ha, hr]

theorem step_of_nil_low {s : State} (hr : s.rstN = false) (ha : s.agenda = []) : step s = .next s := by
  simp [step, agendaStep, ha, hr]

theorem step_of_cons_low {s : State} {e : Event} {rest : List Event} (hr : s.rstN = false)
    (ha : s.agenda = e :: rest) : step s = resetStep { s with agenda := rest } e := by
  simp [step, agendaStep, ha, hr]

/-- A held illegal word completes with ILLEGAL_COMMAND (spec/30_encoding.md R86). -/
theorem sequencerStep_of_not_legal {s : State} {h : Held} (hs : s.seq = .busy h) (hl : legal h.word = false) :
    sequencerStep s = .next (s.raiseError .illegalCommand) := by
  obtain ⟨e, he⟩ := decodeWord_error_of_not_legal hl
  simp [sequencerStep, hs, runWord, he]

/-- Settles O7, clause by clause from the equations of the step. -/
theorem stepPerformsTheNextEvent : Obligations.StepPerformsTheNextEvent := by
  intro s rest hr
  refine ⟨fun a ha => step_of_cons hr ha, fun w ha => step_of_cons hr ha, fun l ha => step_of_cons hr ha,
    fun a first ha => step_of_cons hr ha, fun ha => step_of_cons hr ha, fun ha hi => ?_, fun h ha hs hl => ?_,
    fun ha => step_of_nil hr ha, fun ha hi => ?_⟩
  · exact (step_of_cons hr ha).trans (sequencerStep_of_idle hi)
  · exact (step_of_cons hr ha).trans (sequencerStep_of_not_legal hs hl)
  · exact (step_of_nil hr ha).trans (sequencerStep_of_idle hi)

/-! ### What every step keeps -/

/-- Making a request changes the held command alone, and a completion the registers, the sequencer and STATUS: so the
sequencer's step leaves every other field (spec/10_state.md R24). -/
theorem sequencerStep_frame {s t : State} (h : sequencerStep s = .next t) :
    t = { s with regs := t.regs, seq := t.seq, status := t.status } := by
  cases hs : s.seq with
  | idle =>
    rw [sequencerStep_of_idle hs] at h
    cases h
    rfl
  | busy c =>
    rcases sequencerStep_cases hs h with ⟨-, rfl⟩ | ⟨i, -, hx⟩
    · rfl
    · rcases exec_cases hx with ⟨o, -, rfl⟩ | ⟨ra, -, -, rfl⟩ <;> rw [State.start_of_busy (State.busy_of_seq hs)]
      · rw [State.complete_eq]
      · rw [State.requestEntropy_of_busy hs]

/-- The orders of a transaction and the sequencer's step in one cycle (spec/60_exceptions.md R209). -/
theorem sameCycleStep_cases {s t : State} {a : Access} {first : Bool} (h : sameCycleStep s a first = .next t) :
    s.hostAccess a = .next t ∨
    (∃ u, s.hostAccess a = .next u ∧ sequencerStep u = .next t) ∨
    (∃ u, sequencerStep s = .next u ∧ u.hostAccess a = .next t) := by
  unfold sameCycleStep at h
  split at h
  · split at h
    · exact .inr (.inl (andThen_eq_next h))
    · split at h
      · exact .inr (.inr (andThen_eq_next h))
      · exact .inr (.inl (andThen_eq_next h))
  · exact .inl h

/-- `P` is kept by each move a step is made of: an agent's move with `rst_n` high, the reset pin's, the port falling
silent while `rst_n` is low, and taking events off the agenda. -/
structure KeptByMoves (P : State → Prop) : Prop where
  agenda : ∀ {s} rest, P s → P { s with agenda := rest }
  sequencer : ∀ {s t}, P s → s.rstN = true → sequencerStep s = .next t → P t
  host : ∀ {s t a}, P s → s.rstN = true → s.hostAccess a = .next t → P t
  entropy : ∀ {s} w, P s → s.rstN = true → P (s.entropyResponse w)
  resetPin : ∀ {s} level, P s → P (s.driveReset level)
  silence : ∀ {s}, P s → s.rstN = false → P { s with port := none }

section
variable {P : State → Prop} {s t : State} {e : Event}

theorem KeptByMoves.sameCycle {a : Access} {first : Bool} (hP : KeptByMoves P) (hs : P s) (hr : s.rstN = true)
    (h : sameCycleStep s a first = .next t) : P t := by
  rcases sameCycleStep_cases h with hh | ⟨u, hh, hq⟩ | ⟨u, hq, hh⟩
  · exact hP.host hs hr hh
  · have hu : u.rstN = true := (State.hostAccess_params hh).2.2.1.trans hr
    exact hP.sequencer (hP.host hs hr hh) hu hq
  · have hu : u.rstN = true := by rw [sequencerStep_frame hq, hr]
    exact hP.host (hP.sequencer hs hr hq) hu hh

theorem KeptByMoves.eventStep (hP : KeptByMoves P) (hs : P s) (hr : s.rstN = true)
    (h : eventStep s e = .next t) : P t := by
  cases e with
  | sequencer => exact hP.sequencer hs hr h
  | host a => exact hP.host hs hr h
  | entropy w => cases h; exact hP.entropy w hs hr
  | resetPin level => cases h; exact hP.resetPin level hs
  | sameCycle a first => exact hP.sameCycle hs hr h

theorem KeptByMoves.resetStep (hP : KeptByMoves P) (hs : P s) (hr : s.rstN = false)
    (h : resetStep s e = .next t) : P t := by
  cases e with
  | sequencer => cases h; exact hs
  | host a => cases h; exact hP.silence hs hr
  | entropy w => cases h; exact hs
  | resetPin level => cases h; exact hP.resetPin level hs
  | sameCycle a first => cases h; exact hP.silence hs hr

/-- What every move keeps, every step keeps. -/
theorem KeptByMoves.step (hP : KeptByMoves P) (hs : P s) (h : step s = .next t) : P t := by
  cases ha : s.agenda with
  | nil =>
    cases hr : s.rstN with
    | true => exact hP.sequencer hs hr (step_of_nil hr ha ▸ h)
    | false =>
      rw [step_of_nil_low hr ha] at h
      cases h
      exact hs
  | cons e rest =>
    cases hr : s.rstN with
    | true => exact hP.eventStep (hP.agenda rest hs) hr (step_of_cons hr ha ▸ h)
    | false => exact hP.resetStep (hP.agenda rest hs) hr (step_of_cons_low hr ha ▸ h)

end

/-! ### NLIMB and BASE -/

theorem keptByMoves_params (n b : Nat) : KeptByMoves (fun s => s.nlimb = n ∧ s.base = b) where
  agenda _ hs := hs
  sequencer hs _ h := by rw [sequencerStep_frame h]; exact hs
  host hs _ h := by
    obtain ⟨hn, hb, -, -⟩ := State.hostAccess_params h
    rwa [hn, hb]
  entropy w hs _ := by rw [State.entropyResponse_eq]; exact hs
  resetPin {s} level hs := by
    rcases s.driveReset_cases level with ⟨-, -, e⟩ | e <;> rw [e]
    · exact hs
    · simpa using hs
  silence hs _ := hs

/-- Settles O60: no move of a step changes the parameters. -/
theorem stepKeepsTheParameters : Obligations.StepKeepsTheParameters :=
  fun s _ h => (keptByMoves_params s.nlimb s.base).step ⟨rfl, rfl⟩ h

/-! ### The invariant -/

/-- Settles O56: the sequencer is IDLE there, the registers and the flags are 0, and `rst_n` is high. -/
theorem resetHasTheInvariant : Obligations.ResetHasTheInvariant := by
  have hreset : ∀ nlimb base, 1 ≤ nlimb → nlimb ≤ 256 → base % 0x4000 = 0 →
      (State.resetWith nlimb base).Inv := fun nlimb base h1 h2 h3 =>
    { nlimb_pos := h1
      nlimb_le := h2
      base_aligned := h3
      regs_lt := fun r => by simp [State.reg, State.resetWith]
      held := nofun
      err_flags := fun _ => ⟨rfl, rfl, rfl⟩
      result_signs := nofun
      in_reset := nofun }
  exact ⟨hreset Config.resetNlimb Config.resetBase (by decide) (by decide) (by decide), hreset⟩

theorem State.reg_setRegs_lt {s : State} {ws : List (RegIdx × Nat)} {n : Nat} (hs : ∀ r, s.reg r < n)
    (hw : ∀ w ∈ ws, w.2 < n) (q : RegIdx) : (s.setRegs ws).reg q < n := by
  rcases s.reg_setRegs_cases ws q with e | ⟨w, hmem, -, e⟩ <;> rw [e]
  · exact hs q
  · exact hw w hmem

theorem State.writeFlags_err (s : State) (res : Option Bool) (sg : Option (Bool × Bool)) :
    (s.writeFlags res sg).status.err = s.status.err := by
  cases res <;> cases sg <;> rfl

theorem State.writeFlags_none_result (s : State) (sg : Option (Bool × Bool)) :
    (s.writeFlags none sg).status.result = s.status.result := by
  cases sg <;> rfl

namespace State.Inv

variable {s t : State} {h : Held}

/-- The invariant looks at no agenda and no counter, and at the port only in reset. -/
theorem surroundings (hs : s.Inv) (p : Option Transaction) (l : List Event) (c : Nat)
    (hp : s.rstN = false → p = none) : ({ s with port := p, agenda := l, freeCtr := c } : State).Inv :=
  { hs with
    held := fun h hh => { hs.held h hh with }
    in_reset := fun hr => { hs.in_reset hr with port_silent := hp hr } }

/-- A unit that holds no command and is out of reset needs its registers in range and its flags in order. -/
theorem of_idle (hs : s.Inv) (hn : t.nlimb = s.nlimb) (hb : t.base = s.base) (hregs : ∀ r, t.reg r < 2 ^ s.width)
    (hidle : t.seq = .idle)
    (herr : t.status.err ≠ .none → t.status.result = false ∧ t.status.xneg = false ∧ t.status.yneg = false)
    (hres : t.status.result = true → t.status.xneg = false ∧ t.status.yneg = false)
    (hrst : t.rstN = false → InResetInv t) : t.Inv where
  nlimb_pos := hn ▸ hs.nlimb_pos
  nlimb_le := hn ▸ hs.nlimb_le
  base_aligned := hb ▸ hs.base_aligned
  regs_lt r := by
    have hw : t.width = s.width := congrArg (32 * ·) hn
    exact hw ▸ hregs r
  held h hh := by rw [hidle] at hh; cases hh
  err_flags := herr
  result_signs := hres
  in_reset := hrst

/-- The values a command computes from are in range: they are those of the registers (spec/10_state.md R25). -/
theorem source_lt (hs : s.Inv) (r : RegIdx) : s.source r < 2 ^ s.width := by
  cases hseq : s.seq with
  | idle => simpa [State.source, hseq] using hs.regs_lt r
  | busy h =>
    rw [State.source_of_busy hseq, (hs.held h hseq).src_eq]
    exact hs.regs_lt r

/-! Completion -/

/-- An error completion leaves the flags at the 0 they had (spec/60_exceptions.md R200). -/
theorem complete_error (hs : s.Inv) (hb : s.seq = .busy h) (c : ErrCode) : (s.complete (.error c)).Inv := by
  have hh := hs.held h hb
  exact hs.of_idle rfl rfl hs.regs_lt rfl (fun _ => ⟨hh.result_clear, hh.xneg_clear, hh.yneg_clear⟩)
    (fun _ => ⟨hh.xneg_clear, hh.yneg_clear⟩) (fun hr => by cases hh.not_in_reset.symm.trans hr)

/-- The flags of a completion with results: ERR stays none, and RESULT and the signs are never written together
(spec/10_state.md R32). -/
theorem complete_results (hs : s.Inv) (hb : s.seq = .busy h) {ws : List (RegIdx × Nat)} {res : Option Bool}
    {sg : Option (Bool × Bool)} (hw : ∀ w ∈ ws, w.2 < 2 ^ s.width) (hex : res ≠ none → sg = none) :
    (s.complete (.results ws res sg)).Inv := by
  have hh := hs.held h hb
  refine hs.of_idle (by simp) (by simp) (State.reg_setRegs_lt hs.regs_lt hw) (by simp) ?_ ?_
    (fun hr => by simp [hh.not_in_reset] at hr) <;> rw [State.complete_results_status]
  · rw [Status.setDone_err, State.writeFlags_err]
    exact fun herr => absurd hh.err_clear herr
  · cases res with
    | some b =>
      rw [hex (by simp)]
      exact fun _ => ⟨hh.xneg_clear, hh.yneg_clear⟩
    | none => simp [State.writeFlags_none_result, hh.result_clear]

theorem complete_rule (hs : s.Inv) (hb : s.seq = .busy h) {i : Instr} {o : Outcome}
    (ho : ruleOutcome s i = some o) : (s.complete o).Inv := by
  cases o with
  | error c => exact hs.complete_error hb c
  | results ws res sg =>
    exact hs.complete_results hb (ruleOutcome_values_lt ho hs.source_lt)
      (fun hne => ((ruleOutcome_results ho).2.1 hne).1)

/-! The entropy source -/

/-- The dialogue of a held MRTEST with the entropy source moves freely (spec/43_miller_rabin.md R164). -/
theorem entropy_dialogue (hs : s.Inv) (hb : s.seq = .busy h) (hm : ∃ ra, decodeWord h.word = .ok (.mrtest ra))
    (req : Bool) (rs : List Word) :
    ({ s with seq := .busy { h with requested := req, responses := rs } } : State).Inv :=
  { hs with
    held := by
      rintro _ ⟨⟩
      exact { hs.held h hb with entropy_only_mrtest := fun _ => hm }
    in_reset := fun hr => by cases (hs.held h hb).not_in_reset.symm.trans hr }

theorem entropyResponse (hs : s.Inv) (w : Word) : (s.entropyResponse w).Inv := by
  unfold State.entropyResponse
  split
  · next h hb =>
    split
    · next hreq => exact hs.entropy_dialogue hb ((hs.held h hb).entropy_only_mrtest (.inl hreq)) _ _
    · exact hs
  · exact hs

/-! The sequencer -/

theorem sequencerStep (hs : s.Inv) (hst : sequencerStep s = .next t) : t.Inv := by
  cases hseq : s.seq with
  | idle =>
    rw [sequencerStep_of_idle hseq] at hst
    cases hst
    exact hs
  | busy h =>
    rcases sequencerStep_cases hseq hst with ⟨-, rfl⟩ | ⟨i, hd, hx⟩
    · exact hs.complete_error hseq .illegalCommand
    · rcases exec_cases hx with ⟨o, ho, rfl⟩ | ⟨ra, rfl, -, rfl⟩
      · rw [State.start_of_busy (State.busy_of_seq hseq)] at ho ⊢
        exact hs.complete_rule hseq ho
      · rw [State.start_of_busy (State.busy_of_seq hseq), State.requestEntropy_of_busy hseq]
        exact hs.entropy_dialogue hseq ⟨ra, hd⟩ _ _

/-! The host port -/

theorem accept (hs : s.Inv) (hr : s.rstN = true) (v : Word) : (s.accept v).Inv :=
  { hs with
    held := by
      rintro _ ⟨⟩
      exact ⟨rfl, rfl, rfl, rfl, rfl, rfl, rfl, by simp, hr⟩
    err_flags := fun _ => ⟨rfl, rfl, rfl⟩
    result_signs := nofun
    in_reset := fun hlow => by cases hr.symm.trans hlow }

/-- Clearing DONE, setting or clearing LOST, and writing IE or CONFIG reach nothing the invariant ties to the held
command, with `rst_n` high. -/
theorem host_fields (hs : s.Inv) (hr : s.rstN = true) (ie done lost : Bool) (rounds : BitVec 8)
    (hd : s.status.done = false → done = false) :
    ({ s with ie := ie, rounds := rounds, status := { s.status with done := done, lost := lost } } : State).Inv :=
  { hs with
    held := fun h hh => { hs.held h hh with done_clear := hd (hs.held h hh).done_clear }
    in_reset := fun hlow => by cases hr.symm.trans hlow }

theorem setReg (hs : s.Inv) (hr : s.rstN = true) (hidle : s.seq = .idle) (i : RegIdx) {v : Nat}
    (hv : v < 2 ^ s.width) : (s.setReg i v).Inv := by
  refine hs.of_idle rfl rfl (fun r => ?_) hidle hs.err_flags hs.result_signs
    (fun hlow => by cases hr.symm.trans hlow)
  rw [State.reg_setReg]
  split
  · exact hv
  · exact hs.regs_lt r

theorem softReset (hs : s.Inv) (hr : s.rstN = true) : s.softReset.Inv := by
  refine hs.of_idle (by simp) (by simp) (fun r => ?_) (by simp) (by simp) (by simp) (by simp [hr])
  rcases s.softReset_reg r with e | ⟨c, -, e⟩ <;> rw [e]
  · exact hs.regs_lt r
  · exact Nat.mod_lt _ (by positivity)

theorem writeLoc (hs : s.Inv) (hr : s.rstN = true) (v : Word) (l : Loc) : (s.writeLoc v l).Inv := by
  rcases s.writeLoc_cases v l with
    e | e | ⟨b, e⟩ | ⟨-, e⟩ | ⟨-, -, e⟩ | e | e | ⟨hb, i, j, hj, e⟩ <;> rw [e]
  · exact hs
  · exact hs.softReset hr
  · exact hs.host_fields hr b s.status.done s.status.lost s.rounds id
  · exact hs.host_fields hr s.ie s.status.done true s.rounds id
  · exact hs.accept hr v
  · exact hs.host_fields hr s.ie _ _ s.rounds (fun hd => by simp [hd])
  · exact hs.host_fields hr s.ie s.status.done s.status.lost _ id
  · exact hs.setReg hr (State.not_busy_iff.mp hb) i (setLimb_lt v (hs.regs_lt i) hj)

theorem answer (hs : s.Inv) (hr : s.rstN = true) (a : Access) (r : Response) : (s.answer a r).Inv :=
  hs.surroundings _ s.agenda s.freeCtr (fun hlow => by cases hr.symm.trans hlow)

theorem afterRead (hs : s.Inv) (l : Loc) : (s.afterRead l).Inv := by
  rw [State.afterRead_eq]
  exact hs.surroundings s.port s.agenda _ (fun hr => (hs.in_reset hr).port_silent)

theorem hostAccess (hs : s.Inv) (hr : s.rstN = true) {a : Access} (h : s.hostAccess a = .next t) : t.Inv := by
  have hrt : t.rstN = true := (State.hostAccess_params h).2.2.1.trans hr
  obtain ⟨-, rfl | ⟨-, -, rfl⟩ | ⟨-, -, rfl⟩⟩ := State.hostAccess_cases h
  · exact hs.answer hr a _
  · exact (hs.writeLoc hr _ _).answer hrt a _
  · exact (hs.afterRead _).answer hrt a _

/-! The reset pin -/

theorem driveReset (hs : s.Inv) (level : Bool) : (s.driveReset level).Inv := by
  rcases s.driveReset_cases level with ⟨-, -, e⟩ | e <;> rw [e]
  · exact hs
  · refine hs.of_idle (by simp) (by simp) (fun r => ?_) (by simp) (by simp) (by simp)
      (fun _ => ⟨by simp, by simp, by simp, by simp, by simp, rfl⟩)
    obtain ⟨c, -, e⟩ := s.hardReset_reg r
    exact e ▸ Nat.mod_lt _ (by positivity)

end State.Inv

theorem keptByMoves_inv : KeptByMoves State.Inv where
  agenda {s} rest hs := hs.surroundings s.port rest s.freeCtr (fun hr => (hs.in_reset hr).port_silent)
  sequencer hs _ h := hs.sequencerStep h
  host hs hr h := hs.hostAccess hr h
  entropy w hs _ := hs.entropyResponse w
  resetPin level hs := hs.driveReset level
  silence {s} hs _ := hs.surroundings none s.agenda s.freeCtr (fun _ => rfl)

/-- Settles O57: every move of a step keeps the invariant. -/
theorem stepKeepsTheInvariant : Obligations.StepKeepsTheInvariant :=
  fun _ _ hs h => keptByMoves_inv.step hs h

end Sys2Proof.Machine

/-! What a command changes and what it computes from, and the control registers at the host port. -/

namespace Sys2Proof.Machine

/-! ### The frame of a command -/

/-- A command changes the register file, the sequencer and STATUS of the state it runs in, and nothing else (R24). -/
theorem exec_frame {i : Instr} {s t : State} (h : exec i s = .next t) :
    t = { s.start i with regs := t.regs, seq := t.seq, status := t.status } := by
  rcases exec_cases h with ⟨o, -, rfl⟩ | ⟨ra, -, -, rfl⟩
  · rw [State.complete_eq]
  · rw [State.requestEntropy_eq]

theorem State.start_frame (s : State) (i : Instr) :
    s.start i =
      { s with cmdLast := (s.start i).cmdLast, seq := (s.start i).seq, status := (s.start i).status } := by
  cases h : s.seq with
  | idle => rw [State.start_of_idle h]; rfl
  | busy c => rw [State.start_of_busy (State.busy_of_seq h)]

theorem State.start_lost (s : State) (i : Instr) : (s.start i).status.lost = s.status.lost := by
  cases h : s.seq with
  | idle => rw [State.start_of_idle h]; rfl
  | busy c => rw [State.start_of_busy (State.busy_of_seq h)]

theorem State.complete_rule_reg {u : State} {i : Instr} {o : Outcome} (ho : ruleOutcome u i = some o)
    {r : RegIdx} (hr : r ∉ dests i) : (u.complete o).reg r = u.reg r := by
  cases o with
  | error c => rfl
  | results ws res sg =>
    rw [State.complete_results_reg]
    refine State.reg_setRegs_of_notMem u ws r fun w hw e => hr ?_
    rw [← (ruleOutcome_results ho).1, ← e]
    exact List.mem_map_of_mem hw

/-- No command changes a register but its destinations (R21). -/
theorem exec_reg_of_notMem_dests {i : Instr} {s t : State} (h : exec i s = .next t) {r : RegIdx}
    (hr : r ∉ dests i) : t.reg r = (s.start i).reg r := by
  rcases exec_cases h with ⟨o, ho, rfl⟩ | ⟨ra, -, -, rfl⟩
  · exact State.complete_rule_reg ho hr
  · rw [State.requestEntropy_eq]; rfl

/-- No command changes LOST (R205). -/
theorem exec_lost {i : Instr} {s t : State} (h : exec i s = .next t) : t.status.lost = s.status.lost := by
  rw [← s.start_lost i]
  rcases exec_cases h with ⟨o, -, rfl⟩ | ⟨ra, -, -, rfl⟩
  · exact State.complete_lost _ o
  · rw [State.requestEntropy_eq]

/-- Settles O31: the frame of the state a command runs in, and of the acceptance before it. -/
theorem commandFrame : Obligations.CommandFrame := by
  intro i s t h
  have hreg : ∀ r, r ∉ dests i → t.reg r = s.reg r := fun r hr => by
    rw [exec_reg_of_notMem_dests h hr, s.start_frame i]; rfl
  refine ⟨hreg, ?_, ?_, ?_, exec_lost h, ?_⟩
  · rw [exec_frame h, s.start_frame i]
  · rw [exec_frame h, s.start_frame i]
  · rw [exec_frame h]
  · rw [exec_frame h, s.start_frame i]
    exact ⟨rfl, rfl, rfl, rfl, rfl, rfl⟩

/-! ### The flags -/

theorem State.writeFlags_none_signs (s : State) (res : Option Bool) :
    (s.writeFlags res none).status.xneg = s.status.xneg ∧
      (s.writeFlags res none).status.yneg = s.status.yneg := by
  cases res <;> exact ⟨rfl, rfl⟩

/-- Which command's completion writes which flags (R32). -/
theorem complete_rule_flags {u : State} {i : Instr} {o : Outcome} (ho : ruleOutcome u i = some o) :
    ((u.complete o).status.result = u.status.result ∨ (∃ ra rb, i = .mrround ra rb) ∨ ∃ ra, i = .mrtest ra) ∧
    ((u.complete o).status.xneg = u.status.xneg ∧ (u.complete o).status.yneg = u.status.yneg ∨
      ∃ rd ra rb, i = .egcd rd ra rb) := by
  cases o with
  | error c => exact ⟨.inl rfl, .inl ⟨rfl, rfl⟩⟩
  | results ws res sg =>
    obtain ⟨-, hres, hsg⟩ := ruleOutcome_results ho
    rw [State.complete_results_status]
    constructor
    · cases res with
      | none => exact .inl (State.writeFlags_none_result u sg)
      | some b => exact .inr (hres (by simp)).2
    · cases sg with
      | none => exact .inl (State.writeFlags_none_signs u res)
      | some xy => exact .inr (hsg (by simp))

/-- Settles O30: a wait leaves STATUS, and a completion writes the flags of its rule. -/
theorem flagsBelongToTheirCommands : Obligations.FlagsBelongToTheirCommands := by
  intro i s t hb h
  rcases exec_cases h with ⟨o, ho, rfl⟩ | ⟨ra, -, ho, rfl⟩ <;> rw [State.start_of_busy hb] at ho ⊢
  · obtain ⟨hres, hsg⟩ := complete_rule_flags ho
    exact ⟨hres.resolve_left, fun hne => hsg.resolve_left (by tauto), State.complete_lost s o⟩
  · rw [State.requestEntropy_eq]
    simp

/-! ### The region -/

theorem eq_of_locate_status {off : Nat} (h : locate off = .status) : off = 0x000C := by
  unfold locate at h
  split_ifs at h
  assumption

/-- The window's slots do not overlap: what stands in a slot of register `i` has its offset there (R53). -/
theorem slot_of_locate_limb {off : Nat} {i : RegIdx} {j : Nat} (h : locate off = .limb i j) :
    limbOffset i 0 ≤ off ∧ off < limbOffset i 0 + 0x400 := by
  unfold locate at h
  split_ifs at h with _ _ _ _ _ hw
  obtain ⟨rfl, -⟩ : Fin.ofNat 8 ((off - 0x1000) / 0x400) = i ∧ _ := by simpa using h
  unfold limbOffset
  rw [Fin.val_ofNat]
  omega

/-- With the sequencer IDLE, a read outside STATUS depends on the control registers and on the one operand register whose
limb it returns. -/
theorem State.readValue_of_frame {t u : State} (ht : t.seq = .idle)
    (hf : t = { u with regs := t.regs, seq := t.seq, status := t.status }) {l : Loc} (hl : l ≠ .status)
    (hreg : ∀ i j, l = .limb i j → t.reg i = u.reg i) :
    t.readValue l = ({ u with seq := .idle } : State).readValue l := by
  cases l with
  | status => exact absurd rfl hl
  | limb i j =>
    have hn : t.nlimb = u.nlimb := by rw [hf]
    simp only [State.readValue, State.busy_of_idle ht, hn, hreg i j rfl]
    rfl
  | param => rw [hf]; rfl
  | ctrl => rw [hf]; rfl
  | cmd => rw [hf]; rfl
  | config => rw [hf]; rfl
  | reserved => rfl

/-- Settles O32: a byte outside STATUS and the destinations' slots stands in a word whose value the command keeps. -/
theorem commandRegionFrame : Obligations.CommandRegionFrame := by
  intro i s t off h ht _ hstatus hslots
  refine congrArg (byteLane · (off % 4)) (State.readValue_of_frame ht (exec_frame h) ?_ fun d j hl => ?_)
  · intro hl
    have := eq_of_locate_status hl
    omega
  · have hslot := slot_of_locate_limb hl
    refine exec_reg_of_notMem_dests h fun hd => ?_
    have := hslots d hd
    unfold limbOffset at *
    omega

/-- Settles O33: a sequencer step is a completion or MRTEST's wait. -/
theorem completionIsOneStep : Obligations.CompletionIsOneStep := by
  intro s t hb h
  cases ht : t.seq with
  | idle =>
    obtain ⟨o, rfl, -⟩ := sequencerStep_complete hb h ht
    exact .inl ⟨rfl, State.complete_done s o⟩
  | busy c =>
    have htb := State.busy_of_seq ht
    obtain ⟨rfl, -⟩ := sequencerStep_wait hb h htb
    refine .inr ⟨htb, ?_⟩
    rw [State.requestEntropy_eq]

/-! ### What a command computes from -/

/-- While a command is held, a host access ends it by a soft reset or leaves it as it is (R25, R231). -/
theorem State.hostAccess_seq_of_busy {s t : State} {a : Access} (hb : s.busy = true)
    (h : s.hostAccess a = .next t) : t.seq = .idle ∨ t.seq = s.seq := by
  obtain ⟨-, rfl | ⟨-, -, rfl⟩ | ⟨-, -, rfl⟩⟩ := State.hostAccess_cases h
  · exact .inr rfl
  · rw [State.answer_seq]
    rcases s.writeLoc_cases a.wdata (locate (a.addr - s.base)) with
      e | e | ⟨b, e⟩ | ⟨-, e⟩ | ⟨hn, -, -⟩ | e | e | ⟨hn, -⟩
    · exact .inr (by rw [e])
    · exact .inl (by rw [e, State.softReset_seq])
    · exact .inr (by rw [e])
    · exact .inr (by rw [e])
    · cases hb.symm.trans hn
    · exact .inr (by rw [e, State.writeStatus_seq])
    · exact .inr (by rw [e, State.writeConfig_seq])
    · cases hb.symm.trans hn
  · rw [State.afterRead_eq]
    exact .inr rfl

/-- A rule looks at the held command and the operand width alone (R25). -/
theorem ruleOutcome_congr {u u' : State} {c : Held} (hu : u.seq = .busy c) (hu' : u'.seq = .busy c)
    (hn : u'.nlimb = u.nlimb) (i : Instr) : ruleOutcome u' i = ruleOutcome u i := by
  have hw : u'.width = u.width := congrArg (32 * ·) hn
  cases i <;> simp only [ruleOutcome, hw, State.source_of_busy hu, State.source_of_busy hu',
    State.sourceRounds_of_busy hu, State.sourceRounds_of_busy hu', State.responses_of_busy hu,
    State.responses_of_busy hu']

/-- The error a rule gives is an error (spec/60_exceptions.md R201). -/
theorem ruleOutcome_error_ne_none {u : State} {i : Instr} {c : ErrCode}
    (h : ruleOutcome u i = some (.error c)) : c ≠ .none := by
  rintro rfl
  cases i with
  | modmul rd ra rb rm =>
    simp only [ruleOutcome, modmulOutcome] at h
    split at h <;> simp at h
  | modexp rd ra rb rm =>
    simp only [ruleOutcome, modexpOutcome] at h
    split at h <;> simp at h
  | egcd rd ra rb =>
    simp only [ruleOutcome, egcdOutcome] at h
    split_ifs at h <;> simp at h
  | modinv rd ra rb =>
    simp only [ruleOutcome, modinvOutcome] at h
    split at h
    · simp at h
    · split at h <;> simp at h
  | mrround ra rb =>
    simp only [ruleOutcome, mrroundOutcome] at h
    split_ifs at h <;> simp at h
  | mrtest ra =>
    simp only [ruleOutcome, mrtestOutcome] at h
    split at h <;> simp at h

/-- Where MRTEST's rule has no outcome, `exec` waits for entropy (spec/43_miller_rabin.md R164). -/
theorem exec_mrtest_of_no_outcome {ra : RegIdx} {s : State}
    (h : ruleOutcome (s.start (.mrtest ra)) (.mrtest ra) = none) :
    exec (.mrtest ra) s = .next (s.start (.mrtest ra)).requestEntropy := by
  simp only [ruleOutcome] at h
  simp only [exec, execMrtest, h]

/-- The STATUS of a completion comes from the STATUS before it and the outcome. -/
theorem State.complete_status_congr {s s' : State} (h : s'.status = s.status) (o : Outcome) :
    (s'.complete o).status = (s.complete o).status := by
  cases o with
  | error c => rw [State.complete_error_status, State.complete_error_status, h]
  | results ws res sg =>
    rw [State.complete_results_status, State.complete_results_status]
    simp only [State.writeFlags, h]

/-- A successful completion's results come from its outcome alone (R24). -/
theorem State.complete_reg_of_mem_dests {u : State} {i : Instr} {o : Outcome} (ho : ruleOutcome u i = some o)
    {s s' : State} (herr : (s.complete o).status.err = .none) {d : RegIdx} (hd : d ∈ dests i) :
    (s'.complete o).reg d = (s.complete o).reg d := by
  cases o with
  | error c => exact absurd herr (ruleOutcome_error_ne_none ho)
  | results ws res sg =>
    rw [← (ruleOutcome_results ho).1] at hd
    exact State.reg_setRegs_congr s' s ws d (List.mem_map.mp hd)

/-- Settles O34: acceptance copies what the rules read, and the rules read nothing else. -/
theorem commandComputesFromLatchedValues : Obligations.CommandComputesFromLatchedValues := by
  refine ⟨fun s v r => ⟨⟨_, rfl, rfl⟩, rfl, rfl⟩, fun s t a hb h ht => ?_,
    fun i s t regs rounds hb _ h => ?_⟩
  · refine (State.hostAccess_seq_of_busy hb h).resolve_left fun hidle => ?_
    cases ht.symm.trans (State.busy_of_idle hidle)
  · obtain ⟨c, hc⟩ := State.busy_iff.mp hb
    generalize hs' : ({ s with regs := regs, rounds := rounds } : State) = s'
    have hc' : s'.seq = .busy c := by rw [← hs', hc]
    have hstatus : s'.status = s.status := by rw [← hs']
    have hrule : ruleOutcome s' i = ruleOutcome s i := ruleOutcome_congr hc hc' (by rw [← hs']) i
    have hstart : s'.start i = s' := State.start_of_busy (State.busy_of_seq hc') i
    rcases exec_cases h with ⟨o, ho, rfl⟩ | ⟨ra, rfl, ho, rfl⟩ <;> rw [State.start_of_busy hb] at ho ⊢
    · refine ⟨s'.complete o, ?_, by simp only [State.complete_seq], State.complete_status_congr hstatus o,
        fun herr d hd => State.complete_reg_of_mem_dests ho herr hd⟩
      rw [exec_of_outcome (hstart.symm ▸ hrule.trans ho), hstart]
    · refine ⟨s'.requestEntropy, ?_, ?_, ?_, fun _ d hd => nomatch hd⟩
      · rw [exec_mrtest_of_no_outcome (hstart.symm ▸ hrule.trans ho), hstart]
      · rw [State.requestEntropy_of_busy hc, State.requestEntropy_of_busy hc']
      · rw [State.requestEntropy_eq, hstatus, s.requestEntropy_eq]

/-! ### Operands and limbs -/

/-- The low `n` limbs are the value modulo `2^(32n)`, whatever stands above them. -/
theorem sum_limbs (n v : Nat) :
    ((List.range n).map (fun j => (limb v j).toNat * 2 ^ (32 * j))).sum = v % 2 ^ (32 * n) := by
  induction n with
  | zero => simp [Nat.mod_one]
  | succ n ih =>
    rw [List.range_succ, List.map_append, List.sum_append, ih, Nat.mul_succ, pow_add, Nat.mod_mul]
    simp [limb, mul_comm]

/-- Settles O44: below `2^(32n)` nothing stands above the `n` limbs. -/
theorem operandIsItsLimbs : Obligations.OperandIsItsLimbs :=
  fun n v hv => ((sum_limbs n v).trans (Nat.mod_eq_of_lt hv)).symm

/-! ### The held command's step, and exec from IDLE -/

/-- A word is its four byte lanes (spec/20_memory.md R54). -/
theorem wordOfBytes_byteLane (v : Word) :
    wordOfBytes (byteLane v 0) (byteLane v 1) (byteLane v 2) (byteLane v 3) = v := by
  refine BitVec.eq_of_toNat_eq ?_
  have hv := v.isLt
  simp only [wordOfBytes, byteLane, toNat_append_eq, BitVec.extractLsb'_toNat, Nat.shiftRight_eq_div_pow]
  omega

theorem ofNat_mod_word (w : Nat) : BitVec.ofNat 32 (w % 2 ^ 32) = BitVec.ofNat 32 w :=
  BitVec.eq_of_toNat_eq (by simp)

theorem decodeWord_of_decodeTableWord {w : Nat} {i : Instr} (h : decodeTableWord 32 w = some i) :
    decodeWord (BitVec.ofNat 32 w) = .ok i := by
  have hlt : w % 2 ^ 32 < 2 ^ 32 := Nat.mod_lt _ (by decide)
  simp only [decodeTableWord, if_pos hlt, decodeBytes, wordOfBytes_byteLane, ofNat_mod_word] at h
  cases hd : decodeWord (BitVec.ofNat 32 w) with
  | ok j => simpa [hd] using h
  | error e => simp [hd] at h

theorem step_of_holds_nil {s : State} {i : Instr} (hr : s.rstN = true) (hi : s.holds i) (ha : s.agenda = []) :
    step s = exec i s :=
  (step_of_nil hr ha).trans (sequencerStep_of_holds hi)

theorem step_of_holds_cons {s : State} {i : Instr} {rest : List Event} (hr : s.rstN = true) (hi : s.holds i)
    (ha : s.agenda = .sequencer :: rest) : step s = exec i { s with agenda := rest } :=
  (step_of_cons hr ha).trans (sequencerStep_of_holds (s := { s with agenda := rest }) hi)

/-- The step after a placing runs the placed word, and the agenda is what it was. -/
theorem step_placeCommand {s : State} {v : Word} {i : Instr} (hd : decodeWord v = .ok i) :
    step (s.placeCommand v) = exec i (({ s with rstN := true } : State).accept v) := by
  have hh : (s.placeCommand v).holds i := ⟨_, rfl, hd⟩
  cases ha : s.agenda with
  | nil =>
    rw [step_of_holds_nil rfl hh (by simp [State.placeCommand, ha])]
    simp [State.placeCommand, State.accept, ha]
  | cons e rest =>
    rw [step_of_holds_cons (rest := e :: rest) rfl hh (by simp [State.placeCommand, ha])]
    simp [State.placeCommand, State.accept, ha]

/-- Settles O6: the step of a held command, and of one just placed. -/
theorem stepRunsTheHeldCommand : Obligations.StepRunsTheHeldCommand := by
  refine ⟨fun s i => step_of_holds_nil, fun s i rest => step_of_holds_cons, fun s w i h => ?_⟩
  rw [State.withFetchWord, ofNat_mod_word, step_placeCommand (decodeWord_of_decodeTableWord h)]
  rfl

/-- `exec` looks at the state the command starts in. -/
theorem exec_congr_start {i : Instr} {s s' : State} (h : s'.start i = s.start i) : exec i s' = exec i s := by
  cases i <;>
    simp only [exec, execModmul, execModexp, execEgcd, execModinv, execMrround, execMrtest, h]

/-- Settles O8: from IDLE a command starts in the state after the acceptance of its word, and stays there once it is
held. -/
theorem idleExecAcceptsFirst : Obligations.IdleExecAcceptsFirst := by
  intro i s hs
  refine exec_congr_start ?_
  rw [State.start_of_idle hs, State.start_of_busy (State.busy_of_seq (State.accept_seq s _))]

/-! ### The control registers -/

/-! Bits and fields of a word read off its number. -/

theorem getLsbD_eq_of_toNat {v : Word} {k : Nat} {b : Bool} (h : v.toNat / 2 ^ k % 2 = b.toNat) :
    v.getLsbD k = b := by
  rw [BitVec.getLsbD, Nat.testBit_eq_decide_div_mod_eq, h]
  cases b <;> rfl

theorem extractLsb'_eq_of_toNat {v : Word} {k n : Nat} {x : BitVec n}
    (h : v.toNat / 2 ^ k % 2 ^ n = x.toNat) : v.extractLsb' k n = x :=
  BitVec.eq_of_toNat_eq (by rw [BitVec.extractLsb'_toNat, Nat.shiftRight_eq_div_pow, h])

/-- The fields of PARAM are constants and NLIMB (R26). -/
theorem State.paramWord_fields (s : State) :
    s.paramWord.extractLsb' 0 16 = BitVec.ofNat 16 s.nlimb ∧ s.paramWord.extractLsb' 16 8 = 8#8 ∧
      s.paramWord.extractLsb' 24 8 = 0x01#8 := by
  unfold State.paramWord
  generalize BitVec.ofNat 16 s.nlimb = n
  have hn := n.isLt
  have hword : (Config.rev ++ Config.nreg ++ n : Word).toNat = 0x01080000 + n.toNat := by
    simp only [toNat_append_eq, Config.rev, Config.nreg, BitVec.toNat_ofNat]
    omega
  refine ⟨extractLsb'_eq_of_toNat ?_, extractLsb'_eq_of_toNat ?_, extractLsb'_eq_of_toNat ?_⟩ <;> rw [hword]
  · omega
  · rw [BitVec.toNat_ofNat]
    omega
  · rw [BitVec.toNat_ofNat]
    omega

theorem State.paramWord_congr {s t : State} (h : t.nlimb = s.nlimb) : t.paramWord = s.paramWord := by
  simp only [State.paramWord, h]

theorem State.driveReset_nlimb (s : State) (level : Bool) : (s.driveReset level).nlimb = s.nlimb := by
  rcases s.driveReset_cases level with ⟨-, -, e⟩ | e <;> rw [e]
  exact s.hardReset_nlimb

/-- Settles O36: the port's read and write rule at offset 0, and the resets keep NLIMB. -/
theorem paramRegister : Obligations.ParamRegister := fun s v =>
  ⟨⟨s.paramWord, s.hostAccess_memRead (by decide) (by decide), s.paramWord_fields⟩,
    s.hostAccess_memWrite v (by decide) (by decide), State.paramWord_congr s.softReset_nlimb,
    fun level => State.paramWord_congr (s.driveReset_nlimb level)⟩

theorem State.ctrlWord_eq (s : State) : s.ctrlWord = if s.ie then 1#32 else 0#32 := by
  unfold State.ctrlWord
  cases s.ie <;> rfl

/-- Settles O37: the write rule of CTRL by its bit 1. -/
theorem ctrlRegister : Obligations.CtrlRegister := by
  intro s v
  have hwrite : s.hostAccess (s.memWrite 0x0004 v) =
      .next ((s.writeCtrl v).answer (s.memWrite 0x0004 v) .okayWrite) :=
    s.hostAccess_memWrite v (by decide) (by decide)
  refine ⟨fun hv => ?_, fun hv => ⟨?_, s.softReset_ie⟩, ?_, rfl, fun _ _ => rfl⟩
  · rw [hwrite, State.writeCtrl, if_neg (by rw [hv]; decide)]
  · rw [hwrite, State.writeCtrl, if_pos hv]
  · rw [← s.ctrlWord_eq]
    exact s.hostAccess_memRead (by decide) (by decide)

theorem runWord_of_not_legal {v : Word} (h : legal v = false) (s : State) :
    runWord v s = .next (s.raiseError .illegalCommand) := by
  obtain ⟨e, he⟩ := decodeWord_error_of_not_legal h
  simp only [runWord, he]

/-- Settles O38: the write rule of CMD by BUSY, and the completion of an illegal word. -/
theorem cmdRegister : Obligations.CmdRegister := by
  intro s v
  have hwrite : s.hostAccess (s.memWrite 0x0008 v) =
      .next ((s.writeCmd v).answer (s.memWrite 0x0008 v) .okayWrite) :=
    s.hostAccess_memWrite v (by decide) (by decide)
  refine ⟨fun hb => ?_, fun hb => ?_, s.hostAccess_memRead (by decide) (by decide), fun _ _ => rfl,
    fun hl => runWord_of_not_legal hl _⟩
  · rw [hwrite, State.writeCmd, if_pos hb]
    rfl
  · rw [hwrite, State.writeCmd, if_neg (by simp [hb])]
    rfl

theorem Status.hostWrite_eq (st : Status) (v : Word) :
    st.hostWrite v = { st with done := st.done && !v.getLsbD 1, lost := st.lost && !v.getLsbD 12 } := by
  unfold Status.hostWrite
  cases v.getLsbD 1 <;> cases v.getLsbD 12 <;> simp

theorem ErrCode.code_le (c : ErrCode) : c.code.toNat ≤ 3 := by
  cases c <;> decide

/-- STATUS as a number: its fields at their places (R29). -/
theorem State.statusWord_toNat (s : State) :
    s.statusWord.toNat =
      4096 * s.status.lost.toNat + 256 * s.status.err.code.toNat + 16 * s.status.yneg.toNat +
        8 * s.status.xneg.toNat + 4 * s.status.result.toNat + 2 * s.status.done.toNat + s.busy.toNat := by
  simp only [State.statusWord, bit, toNat_append_eq, BitVec.toNat_ofBool, BitVec.toNat_ofNat]
  omega

/-- Settles O39: each field is read off the number STATUS is, and the write rule of STATUS. -/
theorem statusRegister : Obligations.StatusRegister := by
  intro s v
  have hword := s.statusWord_toNat
  have hcode := s.status.err.code_le
  have hlost := s.status.lost.toNat_lt
  have hyneg := s.status.yneg.toNat_lt
  have hxneg := s.status.xneg.toNat_lt
  have hresult := s.status.result.toNat_lt
  have hdone := s.status.done.toNat_lt
  have hbusy := s.busy.toNat_lt
  refine ⟨s.hostAccess_memRead (by decide) (by decide),
    getLsbD_eq_of_toNat (by omega), getLsbD_eq_of_toNat (by omega), getLsbD_eq_of_toNat (by omega),
    getLsbD_eq_of_toNat (by omega), getLsbD_eq_of_toNat (by omega),
    extractLsb'_eq_of_toNat (by rw [BitVec.toNat_ofNat]; omega), extractLsb'_eq_of_toNat (by omega), hcode,
    getLsbD_eq_of_toNat (by omega), extractLsb'_eq_of_toNat (by rw [BitVec.toNat_ofNat]; omega), ?_⟩
  rw [s.hostAccess_memWrite v (by decide) (by decide), ← Status.hostWrite_eq]
  rfl

theorem State.configWord_eq (s : State) : s.configWord = s.rounds.setWidth 32 := by
  refine BitVec.eq_of_toNat_eq ?_
  have := s.rounds.isLt
  simp only [State.configWord, toNat_append_eq, BitVec.toNat_setWidth, BitVec.toNat_ofNat]
  omega

/-- Settles O40: the port's rules at offset 0x10; a held command has its own round count, and an acceptance copies
CONFIG's. -/
theorem configRegister : Obligations.ConfigRegister := by
  intro s v
  refine ⟨s.hostAccess_memWrite v (by decide) (by decide), ?_, fun _ _ => rfl, fun hb => ?_, fun _ => rfl⟩
  · rw [← s.configWord_eq]
    exact s.hostAccess_memRead (by decide) (by decide)
  · obtain ⟨c, hc⟩ := State.busy_iff.mp hb
    rw [State.sourceRounds_of_busy hc, State.sourceRounds_of_busy (s := s.writeConfig v) hc]

end Sys2Proof.Machine

/-! The region at the host port (spec/20_memory.md): the register map, limbs and byte lanes, legal and illegal accesses,
the window while BUSY, and what a STATUS read tells the host. -/

namespace Sys2Proof.Machine

/-! ### The register map -/

/-- The word offsets at which `l` stands (R51, R53, R56). -/
def Loc.StandsAt (off : Nat) : Loc → Prop
  | .param => off = 0x0000
  | .ctrl => off = 0x0004
  | .cmd => off = 0x0008
  | .status => off = 0x000C
  | .config => off = 0x0010
  | .limb i j => j < 256 ∧ off = limbOffset i j
  | .reserved => (0x0014 ≤ off ∧ off ≤ 0x0FFF) ∨ (0x3000 ≤ off ∧ off ≤ 0x3FFF)

theorem standsAt_locate {off : Nat} (h : off < 0x4000) (ha : off % 4 = 0) : (locate off).StandsAt off := by
  unfold locate
  split_ifs with h0 h4 h8 hc h10 hw <;> simp only [Loc.StandsAt]
  · exact h0
  · exact h4
  · exact h8
  · exact hc
  · exact h10
  · rw [limbOffset, Fin.val_ofNat]
    omega
  · omega

/-- A location stands at its own offsets and at no others. -/
theorem locate_eq_iff {off : Nat} (h : off < 0x4000) (ha : off % 4 = 0) (l : Loc) :
    locate off = l ↔ l.StandsAt off := by
  refine ⟨fun e => e ▸ standsAt_locate h ha, fun hl => ?_⟩
  cases l with
  | limb i j =>
    obtain ⟨hj, rfl⟩ := hl
    exact locate_limbOffset i j hj
  | reserved => exact locate_reserved (hl.imp_right And.left)
  | param => cases hl; rfl
  | ctrl => cases hl; rfl
  | cmd => cases hl; rfl
  | status => cases hl; rfl
  | config => cases hl; rfl

/-- Settles O42: one clause per location. -/
theorem registerMap : Obligations.RegisterMap := fun _ h ha =>
  have stands := locate_eq_iff h ha
  ⟨stands .param, stands .ctrl, stands .cmd, stands .status, stands .config, fun i j => stands (.limb i j),
    stands .reserved⟩

/-! ### Limbs at the port -/

theorem limbOffset_mod (i : RegIdx) (j : Nat) : limbOffset i j % 4 = 0 := by
  unfold limbOffset
  omega

section
variable (s : State) (i : RegIdx) {j : Nat} (v : Word)

theorem State.hostAccess_readLimb (hj : j < 256) :
    s.hostAccess (s.memRead (limbOffset i j)) =
      .next ((s.afterRead (.limb i j)).answer (s.memRead (limbOffset i j))
        (.okayRead (s.readValue (.limb i j)))) := by
  rw [s.hostAccess_memRead (limbOffset_lt i j hj) (limbOffset_mod i j), locate_limbOffset i j hj]

theorem State.hostAccess_writeLimb (hj : j < 256) :
    s.hostAccess (s.memWrite (limbOffset i j) v) =
      .next ((s.writeLimb i j v).answer (s.memWrite (limbOffset i j) v) .okayWrite) := by
  rw [s.hostAccess_memWrite v (limbOffset_lt i j hj) (limbOffset_mod i j), locate_limbOffset i j hj]
  rfl

end

section
variable {s : State} (i : RegIdx) {j : Nat} (v : Word)

/-! The window's rules while IDLE, below NLIMB and from it (R53, R56). -/

theorem State.afterRead_limb_of_not_busy (hb : s.busy = false) : s.afterRead (.limb i j) = s := by
  simp [State.afterRead, hb]

theorem State.readValue_limb_of_not_busy (hb : s.busy = false) (hj : j < s.nlimb) :
    s.readValue (.limb i j) = limb (s.reg i) j := by
  simp [State.readValue, hb, hj]

theorem State.readValue_limb_above (hb : s.busy = false) (hj : s.nlimb ≤ j) : s.readValue (.limb i j) = 0 := by
  simp [State.readValue, hb, Nat.not_lt.mpr hj]

theorem State.writeLimb_of_not_busy (hb : s.busy = false) (hj : j < s.nlimb) :
    s.writeLimb i j v = s.setReg i (setLimb (s.reg i) j v) := by
  simp [State.writeLimb, hb, hj]

theorem State.writeLimb_above (hb : s.busy = false) (hj : s.nlimb ≤ j) : s.writeLimb i j v = s := by
  simp [State.writeLimb, hb, Nat.not_lt.mpr hj]

/-! The window's rules while BUSY, at every slot (R59). -/

theorem State.afterRead_limb_of_busy (hb : s.busy = true) :
    s.afterRead (.limb i j) = { s with freeCtr := s.freeCtr + 1 } := by
  simp [State.afterRead, hb]

theorem State.readValue_limb_of_busy (hb : s.busy = true) :
    s.readValue (.limb i j) = Config.freeWord s.freeCtr := by
  simp [State.readValue, hb]

theorem State.writeLimb_of_busy (hb : s.busy = true) :
    s.writeLimb i j v = { s with status := s.status.setLost } := by
  simp [State.writeLimb, hb]

end

/-- Settles O43: the window's rules below NLIMB at the port, and limbs bit by bit. -/
theorem limbAccess : Obligations.LimbAccess := by
  intro s i j v hb hn hj
  refine ⟨?_, ?_, limb_getLsbD (s.reg i) j, fun k => setLimb_testBit (s.reg i) j k v⟩
  · have hread := s.hostAccess_readLimb i (j := j) (by omega)
    rwa [State.afterRead_limb_of_not_busy i hb, State.readValue_limb_of_not_busy i hb hj] at hread
  · have hwrite := s.hostAccess_writeLimb i v (j := j) (by omega)
    rwa [State.writeLimb_of_not_busy i v hb hj] at hwrite

/-! ### Byte lanes -/

/-- Byte `k` of the word at `off` stands `k` bytes on (R54). -/
theorem State.readByte_add (s : State) {off k : Nat} (ha : off % 4 = 0) (hk : k < 4) :
    s.readByte (off + k) = byteLane (s.readValue (locate off)) k := by
  have hlane : (off + k) % 4 = k := by omega
  rw [State.readByte, hlane, Nat.add_sub_cancel]

theorem byteLane_getLsbD (v : Word) (k : Nat) {b : Nat} (hb : b < 8) :
    (byteLane v k).getLsbD b = v.getLsbD (8 * k + b) := by
  simp [byteLane, hb]

/-- Four lanes to a limb: lane `t % 4` of limb `t / 4` is byte `t` of the value (R53, R54). -/
theorem byteLane_limb (v t : Nat) : byteLane (limb v (t / 4)) (t % 4) = BitVec.ofNat 8 (v / 2 ^ (8 * t)) := by
  refine BitVec.eq_of_getLsbD_eq fun b hb => ?_
  have hpos : 32 * (t / 4) + (8 * (t % 4) + b) = 8 * t + b := by omega
  rw [byteLane_getLsbD _ _ hb, limb_getLsbD _ _ _ (by omega), hpos, BitVec.getLsbD_ofNat,
    ← Nat.shiftRight_eq_div_pow, Nat.testBit_shiftRight]
  simp [hb]

/-- Settles O45: the lane of a word bit by bit, and byte `t` of a register as a lane of its limb `t / 4`. -/
theorem byteLanes : Obligations.ByteLanes := by
  refine ⟨fun s off k b ha hk hb => ?_, fun s i t hb hn ht => ?_⟩
  · rw [s.readByte_add ha hk, byteLane_getLsbD _ _ hb]
  · have hoff : 0x1000 + 0x400 * i.val + t = limbOffset i (t / 4) + t % 4 := by
      unfold limbOffset
      omega
    rw [hoff, s.readByte_add (limbOffset_mod i _) (by omega), locate_limbOffset i _ (by omega),
      State.readValue_limb_of_not_busy i hb (by omega), byteLane_limb]

/-! ### The frame of a limb write -/

theorem limb_setLimb_ne (x : Nat) {j k : Nat} (h : k ≠ j) (v : Word) : limb (setLimb x j v) k = limb x k := by
  refine BitVec.eq_of_getLsbD_eq fun b hb => ?_
  rw [limb_getLsbD _ _ _ hb, limb_getLsbD _ _ _ hb, setLimb_testBit, if_neg (by omega)]

theorem State.readValue_answer (s : State) (a : Access) (r : Response) (l : Loc) :
    (s.answer a r).readValue l = s.readValue l := by
  cases l <;> rfl

/-- Every other register, and every other limb of the same one, reads as before. -/
theorem State.readValue_setLimb_ne (s : State) {i : RegIdx} {j : Nat} (v : Word) {l : Loc} (hl : l ≠ .limb i j) :
    (s.setReg i (setLimb (s.reg i) j v)).readValue l = s.readValue l := by
  cases l with
  | limb r k =>
    have hlimb : limb ((s.setReg i (setLimb (s.reg i) j v)).reg r) k = limb (s.reg r) k := by
      by_cases hr : r = i
      · subst hr
        rw [State.reg_setReg_self]
        exact limb_setLimb_ne _ (fun hk => hl (by rw [hk])) v
      · rw [State.reg_setReg_ne s hr]
    rw [State.readValue, hlimb]
    rfl
  | param => rfl
  | ctrl => rfl
  | cmd => rfl
  | status => rfl
  | config => rfl
  | reserved => rfl

/-- A window write while IDLE stores one limb, or nothing from NLIMB on. -/
theorem State.writeLimb_frame {s : State} {i : RegIdx} {j : Nat} (v : Word) (hb : s.busy = false) :
    (∀ l, l ≠ .limb i j → (s.writeLimb i j v).readValue l = s.readValue l) ∧
      ∀ r, r ≠ i → (s.writeLimb i j v).reg r = s.reg r := by
  rcases Nat.lt_or_ge j s.nlimb with hj | hj
  · rw [State.writeLimb_of_not_busy i v hb hj]
    exact ⟨fun _ => s.readValue_setLimb_ne v, fun r hr => s.reg_setReg_ne hr _⟩
  · rw [State.writeLimb_above i v hb hj]
    exact ⟨fun _ _ => rfl, fun _ _ => rfl⟩

/-- Settles O50: a byte outside the slot stands in a word of another location. -/
theorem limbWriteFrame : Obligations.LimbWriteFrame := by
  intro s t i j v off hb _ hj hoff h hout
  rw [s.hostAccess_writeLimb i v hj] at h
  cases h
  obtain ⟨hread, hreg⟩ := State.writeLimb_frame (i := i) (j := j) v hb
  refine ⟨?_, hreg⟩
  have hother : locate (off - off % 4) ≠ .limb i j := fun hl => by
    obtain ⟨-, hslot⟩ := (locate_eq_iff (by omega) (by omega) _).mp hl
    omega
  rw [State.readByte, State.readValue_answer, hread _ hother]
  rfl

/-! ### Legal and illegal accesses -/

theorem legalAccess_iff {a : Access} {off : Nat} :
    legalAccess a off = true ↔ a.size = 4 ∧ a.bytemask = 0b1111#4 ∧ off % 4 = 0 := by
  simp [legalAccess, and_assoc]

section
variable {s : State} {a : Access}

theorem State.hostAccess_of_inRegion (h1 : s.base ≤ a.addr) (h2 : a.addr < s.base + 0x4000) :
    s.hostAccess a = .next (s.regionAccess a) := by
  simp [State.hostAccess, State.inRegion, regionSize, h1, h2]

theorem State.regionAccess_of_illegal (h : ¬ legalAccess a (a.addr - s.base) = true) :
    s.regionAccess a = s.answer a .error := by
  simp [State.regionAccess, h]

theorem State.regionAccess_write (h : legalAccess a (a.addr - s.base) = true) (hw : a.write = true) :
    s.regionAccess a = (s.writeLoc a.wdata (locate (a.addr - s.base))).answer a .okayWrite := by
  simp [State.regionAccess, h, hw]

theorem State.regionAccess_read (h : legalAccess a (a.addr - s.base) = true) (hw : a.write = false) :
    s.regionAccess a =
      (s.afterRead (locate (a.addr - s.base))).answer a (.okayRead (s.readValue (locate (a.addr - s.base)))) := by
  simp [State.regionAccess, h, hw]

end

/-- Settles O46: R55's three cases. -/
theorem legalAndIllegalAccess : Obligations.LegalAndIllegalAccess := by
  refine ⟨rfl, fun s a h1 h2 => ?_⟩
  rw [State.hostAccess_of_inRegion h1 h2]
  refine ⟨fun hbad => ?_, fun hsize hmask halign hw => ?_, fun hsize hmask halign hw => ?_⟩
  · rw [State.regionAccess_of_illegal (by rw [legalAccess_iff]; tauto)]
    rfl
  · rw [State.regionAccess_write (legalAccess_iff.mpr ⟨hsize, hmask, halign⟩) hw]
    rfl
  · rw [State.regionAccess_read (legalAccess_iff.mpr ⟨hsize, hmask, halign⟩) hw]
    rfl

/-- Settles O47: the reserved ranges of the map, and the slots from NLIMB. -/
theorem reservedOffsetsReadZero : Obligations.ReservedOffsetsReadZero := by
  refine ⟨fun s off v ha hoff => ?_, fun s i j v hb hn hj => ?_⟩
  · have hreserved := locate_reserved (hoff.imp_right And.left)
    rw [s.hostAccess_memRead (by omega) ha, s.hostAccess_memWrite v (by omega) ha, hreserved]
    exact ⟨rfl, rfl⟩
  · rw [s.hostAccess_readLimb i hj, s.hostAccess_writeLimb i v hj, State.afterRead_limb_of_not_busy i hb,
      State.readValue_limb_above i hb hn, State.writeLimb_above i v hb hn]
    exact ⟨rfl, rfl⟩

/-- Settles O48: every word offset of the window is a limb slot, whose rules while BUSY are those of R59. -/
theorem windowWhileBusy : Obligations.WindowWhileBusy := by
  refine fun s hb => ⟨fun off v ha h1 h2 => ?_, fun v => ⟨rfl, rfl, rfl, rfl, rfl, rfl, rfl, rfl⟩,
    fun v => if_pos hb⟩
  rw [s.hostAccess_memWrite v (by omega) ha, s.hostAccess_memRead (by omega) ha, locate_window h1 (by omega),
    State.writeLoc, State.writeLimb_of_busy _ v hb, State.afterRead_limb_of_busy _ hb,
    State.readValue_limb_of_busy _ hb]
  exact ⟨rfl, rfl⟩

/-- Settles O49: a read gets an ERROR, or moves the model's own counter at most. -/
theorem readsHaveNoSideEffect : Obligations.ReadsHaveNoSideEffect := by
  intro s t a hread h
  obtain ⟨-, rfl | ⟨hwrite, -, -⟩ | ⟨-, -, rfl⟩⟩ := State.hostAccess_cases h
  · rfl
  · cases hread.symm.trans hwrite
  · rw [State.afterRead_eq]
    rfl

/-! ### What a STATUS read tells the host -/

/-- STATUS shows BUSY in its bit 0 (spec/10_state.md R29). -/
theorem State.statusWord_busy (s : State) : s.statusWord.getLsbD 0 = s.busy := by
  have hword := s.statusWord_toNat
  have hbusy := s.busy.toNat_lt
  exact getLsbD_eq_of_toNat (by omega)

/-- An access after which the host has observed BUSY = 0 was made with the sequencer IDLE, and left it so. -/
theorem State.hostAccess_observedIdle {s t : State} {a : Access} (h : s.hostAccess a = .next t)
    (ht : t.observedIdle) : t.seq = .idle := by
  obtain ⟨-, hbase, -, -⟩ := State.hostAccess_params h
  obtain ⟨b, w, hport, haddr, hw⟩ := ht
  rw [hbase] at haddr
  obtain ⟨-, rfl | ⟨-, -, rfl⟩ | ⟨-, -, rfl⟩⟩ := State.hostAccess_cases h
  · cases hport
  · cases hport
  · cases hport
    rw [haddr, Nat.add_sub_cancel_left, locate_status] at hw
    rw [State.answer_seq, State.afterRead_eq]
    exact State.not_busy_iff.mp (s.statusWord_busy.symm.trans hw)

/-- Only a host access makes a new observation; an IDLE sequencer does not move, and a driven reset pin leaves it IDLE or
changes nothing (R62). -/
theorem keptByMoves_observedIdle : KeptByMoves (fun s => s.observedIdle → s.seq = .idle) where
  agenda _ hs := hs
  sequencer {s t} hs _ h ht := by
    have hidle : s.seq = .idle := hs <| by
      rw [sequencerStep_frame h] at ht
      exact ht
    rw [sequencerStep_of_idle hidle] at h
    cases h
    exact hidle
  host _ _ h ht := State.hostAccess_observedIdle h ht
  entropy {s} w hs _ ht := by
    have hidle : s.seq = .idle := hs <| by
      rw [State.entropyResponse_eq] at ht
      exact ht
    simp only [State.entropyResponse, hidle]
  resetPin {s} level hs := by
    rcases s.driveReset_cases level with ⟨-, -, e⟩ | e <;> rw [e]
    · exact hs
    · exact fun _ => s.hardReset_seq
  silence _ _ := nofun

/-- With an empty agenda and the sequencer IDLE, nothing moves (R241). -/
theorem step_of_nil_idle {s : State} (ha : s.agenda = []) (hidle : s.seq = .idle) : step s = .next s := by
  cases hr : s.rstN with
  | true => exact (step_of_nil hr ha).trans (sequencerStep_of_idle hidle)
  | false => exact step_of_nil_low hr ha

/-- Settles O58: every move of a step keeps what the host has observed true, so a finished run is IDLE. -/
theorem observedIdleIsIdle : Obligations.ObservedIdleIsIdle := by
  refine ⟨fun _ => rfl, fun s t hs h ht => keptByMoves_observedIdle.step hs h ht, fun s hs hend => ?_⟩
  obtain ⟨hagenda, hobserved⟩ := hend
  exact step_of_nil_idle hagenda (hs hobserved)

end Sys2Proof.Machine

/-! Command words: the encoder and the decoder undo each other, R86's check in fields and in table rows, and what an
illegal word does (spec/30_encoding.md). -/

namespace Sys2Proof

/-! ### The fields of a packed word -/

@[simp] theorem opField_packWord (op : BitVec 4) (rd ra rb rm : RegIdx) :
    opField (packWord op rd ra rb rm) = op :=
  (packWord_fields op rd ra rb rm).1

@[simp] theorem rdField_packWord (op : BitVec 4) (rd ra rb rm : RegIdx) :
    rdField (packWord op rd ra rb rm) = rd :=
  (packWord_fields op rd ra rb rm).2.1

@[simp] theorem raField_packWord (op : BitVec 4) (rd ra rb rm : RegIdx) :
    raField (packWord op rd ra rb rm) = ra :=
  (packWord_fields op rd ra rb rm).2.2.1

@[simp] theorem rbField_packWord (op : BitVec 4) (rd ra rb rm : RegIdx) :
    rbField (packWord op rd ra rb rm) = rb :=
  (packWord_fields op rd ra rb rm).2.2.2.1

@[simp] theorem rmField_packWord (op : BitVec 4) (rd ra rb rm : RegIdx) :
    rmField (packWord op rd ra rb rm) = rm :=
  (packWord_fields op rd ra rb rm).2.2.2.2.1

@[simp] theorem zeroField_packWord (op : BitVec 4) (rd ra rb rm : RegIdx) :
    zeroField (packWord op rd ra rb rm) = 0 :=
  (packWord_fields op rd ra rb rm).2.2.2.2.2

/-! ### Encoder and decoder -/

/-- Settles O1, command by command: the decoder reads off the fields that were packed, and EGCD's RD passes R85. -/
theorem decodeOfEncode : Obligations.DecodeOfEncode := by
  intro i hwf
  cases i with
  | modmul rd ra rb rm => simp [encode, decodeWord]
  | modexp rd ra rb rm => simp [encode, decodeWord]
  | egcd rd ra rb =>
    have hrd : rd ≤ 5 := of_decide_eq_true hwf
    simp [encode, decodeWord, hrd]
  | modinv rd ra rb => simp [encode, decodeWord]
  | mrround ra rb => simp [encode, decodeWord]
  | mrtest ra => simp [encode, decodeWord]

/-- Settles O5: each word is the command's word, which decodes to it. -/
theorem sampleWordsDecode : Obligations.SampleWordsDecode :=
  ⟨decodeOfEncode (.modmul 3 1 2 0) rfl, decodeOfEncode (.modexp 5 4 1 3) rfl, decodeOfEncode (.egcd 3 0 1) rfl,
    decodeOfEncode (.modinv 2 0 1) rfl, decodeOfEncode (.mrround 1 2) rfl, decodeOfEncode (.mrtest 1) rfl⟩

/-- A word with a zero high half is its other fields packed (R81). -/
theorem packWord_eq_of_fields {v : Word} {op : BitVec 4} {rd ra rb rm : RegIdx} (hz : zeroField v = 0)
    (hop : (opField v).toNat = op.toNat) (hrd : rdField v = rd) (hra : raField v = ra) (hrb : rbField v = rb)
    (hrm : rmField v = rm) : packWord op rd ra rb rm = v := by
  rw [← BitVec.eq_of_toNat_eq hop, ← hrd, ← hra, ← hrb, ← hrm]
  exact packWord_of_fields v hz

/-- Settles O2, branch by branch of the decoder: a field the command does not carry was checked to be zero. -/
theorem encodeOfDecode : Obligations.EncodeOfDecode := by
  intro v i h
  unfold decodeWord at h
  split at h
  · cases h
  next hz =>
    rw [not_not] at hz
    split at h
    case h_1 hop =>
      cases h
      exact ⟨packWord_eq_of_fields hz hop rfl rfl rfl rfl, rfl⟩
    case h_2 hop =>
      cases h
      exact ⟨packWord_eq_of_fields hz hop rfl rfl rfl rfl, rfl⟩
    case h_3 hop =>
      split_ifs at h with hrm hrd
      cases h
      exact ⟨packWord_eq_of_fields hz hop rfl rfl rfl (not_not.mp hrm), decide_eq_true (not_lt.mp hrd)⟩
    case h_4 hop =>
      split_ifs at h with hrm
      cases h
      exact ⟨packWord_eq_of_fields hz hop rfl rfl rfl (not_not.mp hrm), rfl⟩
    case h_5 hop =>
      split_ifs at h with hrm hrd
      cases h
      exact ⟨packWord_eq_of_fields hz hop (not_not.mp hrd) rfl rfl (not_not.mp hrm), rfl⟩
    case h_6 hop =>
      split_ifs at h with hrm hrb hrd
      cases h
      exact ⟨packWord_eq_of_fields hz hop (not_not.mp hrd) rfl (not_not.mp hrb) (not_not.mp hrm), rfl⟩
    case h_7 => cases h

/-! ### R86's check, in fields -/

/-- R86's list of the legal words, in the fields of R81. -/
def FieldsLegal (v : Word) : Prop :=
  v.extractLsb' 16 16 = 0#16 ∧
  (v.extractLsb' 0 4 = 0x1#4 ∨ v.extractLsb' 0 4 = 0x2#4 ∨
    (v.extractLsb' 0 4 = 0x3#4 ∧ v.extractLsb' 13 3 = 0#3 ∧ (v.extractLsb' 4 3).toNat ≤ 5) ∨
    (v.extractLsb' 0 4 = 0x4#4 ∧ v.extractLsb' 13 3 = 0#3) ∨
    (v.extractLsb' 0 4 = 0x5#4 ∧ v.extractLsb' 4 3 = 0#3 ∧ v.extractLsb' 13 3 = 0#3) ∨
    (v.extractLsb' 0 4 = 0x6#4 ∧ v.extractLsb' 4 3 = 0#3 ∧ v.extractLsb' 10 3 = 0#3 ∧ v.extractLsb' 13 3 = 0#3))

theorem extractLsb_eq_iff_opField_toNat {v : Word} {n : BitVec 4} :
    v.extractLsb' 0 4 = n ↔ (opField v).toNat = n.toNat :=
  BitVec.toNat_inj.symm

theorem rdField_eq_zero_iff (v : Word) : rdField v = 0 ↔ v.extractLsb' 4 3 = 0#3 :=
  BitVec.toFin_inj (y := 0#3)

theorem rbField_eq_zero_iff (v : Word) : rbField v = 0 ↔ v.extractLsb' 10 3 = 0#3 :=
  BitVec.toFin_inj (y := 0#3)

theorem rmField_eq_zero_iff (v : Word) : rmField v = 0 ↔ v.extractLsb' 13 3 = 0#3 :=
  BitVec.toFin_inj (y := 0#3)

theorem rdField_le_five_iff (v : Word) : rdField v ≤ 5 ↔ (v.extractLsb' 4 3).toNat ≤ 5 :=
  Iff.rfl

/-- R86's check, line by line, is its list in fields. -/
theorem legal_iff_fieldsLegal (v : Word) : legal v = true ↔ FieldsLegal v := by
  unfold legal FieldsLegal
  simp only [extractLsb_eq_iff_opField_toNat, BitVec.toNat_ofNat]
  split
  next hz => exact iff_of_false nofun fun h => hz h.1
  next hz =>
    have hz : v.extractLsb' 16 16 = 0#16 := not_not.mp hz
    split
    case h_1 hop => simp [hz, hop]
    case h_2 hop => simp [hz, hop]
    case h_3 hop => simp [hz, hop, rmField_eq_zero_iff, rdField_le_five_iff]
    case h_4 hop => simp [hz, hop, rmField_eq_zero_iff]
    case h_5 hop => simp [hz, hop, rdField_eq_zero_iff, rmField_eq_zero_iff]
    case h_6 hop => simp [hz, hop, rdField_eq_zero_iff, rbField_eq_zero_iff, rmField_eq_zero_iff, and_assoc]
    case h_7 h1 h2 h3 h4 h5 h6 =>
      refine iff_of_false nofun ?_
      rintro ⟨-, h | h | ⟨h, -⟩ | ⟨h, -⟩ | ⟨h, -⟩ | ⟨h, -⟩⟩
      exacts [h1 h, h2 h, h3 h, h4 h, h5 h, h6 h]

/-- A word R86's check accepts is a command's word for the decoder. -/
theorem decodeWord_ok_of_legal {v : Word} (h : legal v = true) : ∃ i, decodeWord v = .ok i := by
  unfold legal at h
  split at h
  · cases h
  next hz =>
    have hz : zeroField v = 0#16 := not_not.mp hz
    split at h
    case h_1 hop => exact ⟨.modmul (rdField v) (raField v) (rbField v) (rmField v), by simp [decodeWord, hz, hop]⟩
    case h_2 hop => exact ⟨.modexp (rdField v) (raField v) (rbField v) (rmField v), by simp [decodeWord, hz, hop]⟩
    case h_3 hop =>
      simp only [Bool.and_eq_true, decide_eq_true_eq] at h
      exact ⟨.egcd (rdField v) (raField v) (rbField v), by simp [decodeWord, hz, hop, h]⟩
    case h_4 hop =>
      exact ⟨.modinv (rdField v) (raField v) (rbField v), by simp [decodeWord, hz, hop, of_decide_eq_true h]⟩
    case h_5 hop =>
      simp only [Bool.and_eq_true, decide_eq_true_eq] at h
      exact ⟨.mrround (raField v) (rbField v), by simp [decodeWord, hz, hop, h]⟩
    case h_6 hop =>
      simp only [Bool.and_eq_true, decide_eq_true_eq] at h
      exact ⟨.mrtest (raField v), by simp [decodeWord, hz, hop, h]⟩
    case h_7 => cases h

theorem legal_iff_decodeWord_ok (v : Word) : legal v = true ↔ ∃ i, decodeWord v = .ok i := by
  refine ⟨decodeWord_ok_of_legal, fun ⟨i, hi⟩ => ?_⟩
  by_contra hl
  obtain ⟨e, he⟩ := Machine.decodeWord_error_of_not_legal (eq_false_of_ne_true hl)
  cases hi.symm.trans he

/-! ### The opcode table -/

/-- Two words are the same when the fields of R81 are. -/
theorem word_eq_iff_fields (v w : Word) : v = w ↔
    v.extractLsb' 16 16 = w.extractLsb' 16 16 ∧ v.extractLsb' 0 4 = w.extractLsb' 0 4 ∧
    v.extractLsb' 4 3 = w.extractLsb' 4 3 ∧ v.extractLsb' 7 3 = w.extractLsb' 7 3 ∧
    v.extractLsb' 10 3 = w.extractLsb' 10 3 ∧ v.extractLsb' 13 3 = w.extractLsb' 13 3 := by
  refine ⟨by rintro rfl; simp only [and_self], ?_⟩
  simp only [← BitVec.toNat_inj, BitVec.extractLsb'_toNat, Nat.shiftRight_eq_div_pow]
  omega

/-- The rows of the table take the words R86 lists: each mask keeps some fields whole and drops the others. -/
theorem any_takes_iff_fieldsLegal (v : Word) : opcodeTable.any (fun r => r.takes v) = true ↔ FieldsLegal v := by
  have h16 (x : BitVec 16) : x &&& 65535#16 = x := BitVec.and_allOnes
  have h4 (x : BitVec 4) : x &&& 15#4 = x := BitVec.and_allOnes
  have h3 (x : BitVec 3) : x &&& 7#3 = x := BitVec.and_allOnes
  simp [opcodeTable, OpRow.takes, word_eq_iff_fields, BitVec.extractLsb'_and, h16, h4, h3, FieldsLegal,
    rdField_le_five_iff, and_or_left, and_assoc, -BitVec.extractLsb'_toNat]

/-- A row's mask keeps the opcode, so a row takes words of its own opcode only. -/
theorem opField_of_takes {r : OpRow} {v : Word} (hr : r ∈ opcodeTable) (h : r.takes v = true) :
    opField r.pattern = opField v := by
  have hmask : ∀ r ∈ opcodeTable, opField r.mask = 15#4 := by decide
  simp only [OpRow.takes, Bool.and_eq_true, decide_eq_true_eq] at h
  obtain ⟨hmatch, -⟩ := h
  rw [← hmatch, opField, BitVec.extractLsb'_and]
  show _ &&& opField r.mask = _
  rw [hmask r hr]
  exact BitVec.and_allOnes

/-- Settles O4: the rows' opcodes differ, and the rows that take one word have its opcode. -/
theorem opcodeRowsDoNotOverlap : Obligations.OpcodeRowsDoNotOverlap := by
  intro v
  have hdistinct : (opcodeTable.map (fun r => opField r.pattern)).Nodup := by decide
  have hsame : (opcodeTable.filter (fun r => r.takes v)).map (fun r => opField r.pattern) =
      List.replicate (opcodeTable.filter (fun r => r.takes v)).length (opField v) :=
    List.map_eq_replicate_iff.mpr fun r hr =>
      opField_of_takes (List.mem_filter.mp hr).1 (List.mem_filter.mp hr).2
  have hsub : (opcodeTable.filter (fun r => r.takes v)).Sublist opcodeTable := List.filter_sublist
  have hnodup := hdistinct.sublist (hsub.map _)
  rw [hsame] at hnodup
  exact List.nodup_replicate.mp hnodup

end Sys2Proof

namespace Sys2Proof.Machine

theorem State.writeCmd_of_not_busy {s : State} (h : s.busy = false) (v : Word) : s.writeCmd v = s.accept v := by
  rw [State.writeCmd, if_neg (by simp [h])]

/-- Settles O3: R86's check read in fields, in table rows and through the decoder; acceptance does not decode. -/
theorem legalWordsAndIllegalCompletion : Obligations.LegalWordsAndIllegalCompletion :=
  ⟨legal_iff_fieldsLegal,
    fun v => Bool.eq_iff_iff.mpr ((legal_iff_fieldsLegal v).trans (any_takes_iff_fieldsLegal v).symm),
    legal_iff_decodeWord_ok, fun _ v hb => State.writeCmd_of_not_busy hb v, fun _ _ => sequencerStep_of_not_legal⟩

/-- The word of an EGCD with RD 6 or 7 fails R86's check. -/
theorem legal_encode_egcd_of_lt {rd : RegIdx} (h : 5 < rd) (ra rb : RegIdx) :
    legal (encode (.egcd rd ra rb)) = false := by
  simp [legal, encode, h]

/-- Settles O12: EGCD's rule and the legality check of its word give the same error. -/
theorem egcdWithBadRdIsIllegal : Obligations.EgcdWithBadRdIsIllegal := by
  intro rd ra rb s hb hrd
  have hrule : ruleOutcome (s.start (.egcd rd ra rb)) (.egcd rd ra rb) = some (.error .illegalCommand) :=
    if_pos hrd
  have hexec := exec_of_outcome hrule
  rw [State.start_of_busy hb] at hexec
  exact ⟨hexec, hexec.trans (runWord_of_not_legal (legal_encode_egcd_of_lt hrd ra rb) s).symm⟩

end Sys2Proof.Machine

/-! MODMUL's completions (spec/40_modmul.md). -/

namespace Sys2Proof.Machine

/-- A BUSY unit completes in place with the rule's outcome. -/
theorem exec_of_busy_of_outcome {i : Instr} {s : State} {o : Outcome} (hb : s.busy = true)
    (h : ruleOutcome s i = some o) : exec i s = .next (s.complete o) := by
  have hstart : s.start i = s := State.start_of_busy hb i
  rw [exec_of_outcome (by rwa [hstart]), hstart]

theorem modmulOutcome_of_ne_zero (rd : RegIdx) (a b : Nat) {m : Nat} (hm : m ≠ 0) :
    modmulOutcome rd a b m = .results [(rd, a * b % m)] none none :=
  if_neg hm

theorem modmulOutcome_zero (rd : RegIdx) (a b : Nat) : modmulOutcome rd a b 0 = .error .invalidArgument :=
  if_pos rfl

/-- Settles O9, by the two branches of R100's rule. The sources of a BUSY unit are the latched ones, so RD may be one of
them (R102). -/
theorem modmulResult : Obligations.ModmulResult := by
  intro rd ra rb rm s hb
  have hexec : exec (.modmul rd ra rb rm) s =
      .next (s.complete (modmulOutcome rd (s.source ra) (s.source rb) (s.source rm))) :=
    exec_of_busy_of_outcome hb rfl
  refine ⟨fun hm => ?_, fun hm => ?_⟩
  · rw [hexec, modmulOutcome_of_ne_zero rd _ _ hm]
    rfl
  · rw [hexec, hm, modmulOutcome_zero]
    rfl

end Sys2Proof.Machine

/-! MODEXP's completions and its multiplier count (spec/41_modexp.md). -/

namespace Sys2Proof.Machine

theorem modexpOutcome_of_ne_zero (rd : RegIdx) (base e : Nat) {m : Nat} (hm : m ≠ 0) :
    modexpOutcome rd base e m = .results [(rd, base ^ e % m)] none none := by
  rw [modexpOutcome, if_neg hm, powMod_eq_pow base e m (Nat.pos_of_ne_zero hm)]

theorem modexpOutcome_zero (rd : RegIdx) (base e : Nat) : modexpOutcome rd base e 0 = .error .invalidArgument :=
  if_pos rfl

/-- Settles O10, by the two branches of R120's rule; that R121's loop computes the power is `powMod_eq_pow`. -/
theorem modexpResult : Obligations.ModexpResult := by
  intro rd ra rb rm s hb
  have hexec : exec (.modexp rd ra rb rm) s =
      .next (s.complete (modexpOutcome rd (s.source ra) (s.source rb) (s.source rm))) :=
    exec_of_busy_of_outcome hb rfl
  refine ⟨fun hm => ?_, fun hm => ?_⟩
  · rw [hexec, modexpOutcome_of_ne_zero rd _ _ hm]
    rfl
  · rw [hexec, hm, modexpOutcome_zero]
    rfl

/-- Halving takes off the lowest bit, and the set bits above it stay. -/
theorem popcount_half {e : Nat} (h : e ≠ 0) : popcount e = popcount (e / 2) + e % 2 := by
  have hshift : (fun k => e.testBit k) ∘ Nat.succ = fun k => (e / 2).testBit k :=
    funext fun k => Nat.testBit_succ e k
  rw [popcount, bitlen_succ_half h, List.range_succ_eq_map, List.countP_cons, List.countP_map, hshift, popcount,
    Nat.testBit_zero]
  rcases Nat.mod_two_eq_zero_or_one e with h0 | h1
  · simp [h0]
  · simp [h1]

theorem powPass_e (m : Nat) (p : PowState) : (powPass m p).e = p.e / 2 := by
  unfold powPass
  split <;> rfl

/-- A pass squares once, and accumulates where the lowest exponent bit is set (R121). -/
theorem powPass_calls (m : Nat) (p : PowState) : (powPass m p).calls = p.calls + p.e % 2 + 1 := by
  unfold powPass
  split
  · next h1 => rw [h1]
  · next h1 => rw [Nat.mod_two_ne_one.mp h1, Nat.add_zero]

/-- The loop spends on each exponent bit what `powPass_calls` says, with fuel for all of them. -/
theorem powLoop_calls (m fuel : Nat) (p : PowState) (h : bitlen p.e ≤ fuel) :
    (powLoop m fuel p).calls = p.calls + bitlen p.e + popcount p.e := by
  induction fuel generalizing p with
  | zero =>
    have he : p.e = 0 := by
      by_contra he
      rw [bitlen_succ_half he] at h
      cases h
    rw [he]
    rfl
  | succ fuel ih =>
    unfold powLoop
    split
    · next he =>
      rw [he]
      rfl
    · next he =>
      rw [bitlen_succ_half he] at h
      have hrest := ih (powPass m p) (by rw [powPass_e]; omega)
      rw [hrest, powPass_e, powPass_calls, bitlen_succ_half he, popcount_half he]
      omega

/-- Settles O17: R122's count is the whole loop's, started with no calls. -/
theorem powModCallCount : Obligations.PowModCallCount := by
  intro base e m hm
  have hloop := powLoop_calls m (bitlen e) { result := 1, b := base % m, e := e, calls := 0 } le_rfl
  rw [powModCalls, if_neg (Nat.not_le.mpr hm), powRun]
  simpa using hloop

end Sys2Proof.Machine

/-! The extended-gcd unit: the size of R140's coefficients, R143's inverse, and the completions of EGCD and MODINV
(spec/42_egcd_modinv.md). -/

namespace Sys2Proof.Machine

/-! ### The size of the Bézout coefficients (R142) -/

/-- What R140's loop keeps of one coefficient column `old, cur` beside the remainders `oldR, r`. The column of `s` has
`n = b`, and that of `t` has `n = a`. -/
structure CoeffInv (n oldR r : Nat) (old cur : Int) : Prop where
  alternate : old * cur ≤ 0
  weight : oldR * cur.natAbs + r * old.natAbs = n
  old_le : old.natAbs ≤ max n 1
  cur_le : cur.natAbs ≤ max n 1

/-- Of opposite signs, the two parts of a difference add up. -/
theorem natAbs_sub_mul_of_mul_nonpos {x y : Int} (h : x * y ≤ 0) (q : Nat) :
    (x - q * y).natAbs = x.natAbs + q * y.natAbs := by
  rw [← Int.natAbs_natCast q, ← Int.natAbs_mul, Int.natAbs_natCast]
  rcases mul_nonpos_iff.mp h with ⟨hx, hy⟩ | ⟨hx, hy⟩
  · have hqy : (q : Int) * y ≤ 0 := mul_nonpos_of_nonneg_of_nonpos (by omega) hy
    omega
  · have hqy : 0 ≤ (q : Int) * y := mul_nonneg (by omega) hy
    omega

/-- One pass of R140 on one column: the signs go on alternating, so the weighted sum is kept; the new coefficient has
the weight `r ≠ 0` in it, which bounds it. -/
theorem CoeffInv.pass {n oldR r : Nat} {old cur : Int} (h : CoeffInv n oldR r old cur) (hr : r ≠ 0) :
    CoeffInv n r (oldR - oldR / r * r) cur (old - (oldR / r : Nat) * cur) := by
  have hmod : oldR / r * r + (oldR - oldR / r * r) = oldR := Nat.add_sub_of_le (Nat.div_mul_le_self oldR r)
  generalize oldR / r = q at hmod ⊢
  generalize oldR - q * r = r' at hmod ⊢
  have habs := natAbs_sub_mul_of_mul_nonpos h.alternate q
  have hweight : r * (old - q * cur).natAbs + r' * cur.natAbs = n := by
    rw [habs, ← h.weight, ← hmod]
    ring
  refine ⟨?_, hweight, h.cur_le, le_max_of_le_left ?_⟩
  · have hsq : 0 ≤ (q : Int) * (cur * cur) := mul_nonneg (by omega) (mul_self_nonneg cur)
    linarith [h.alternate]
  · calc (old - q * cur).natAbs
        ≤ r * (old - q * cur).natAbs := Nat.le_mul_of_pos_left _ (Nat.pos_of_ne_zero hr)
      _ ≤ n := by omega

/-- Both coefficient columns of R140's loop state. -/
def CoeffsInv (a b : Nat) (e : EuclidState) : Prop :=
  CoeffInv b e.oldR e.r e.oldS e.s ∧ CoeffInv a e.oldR e.r e.oldT e.t

theorem euclidStart_coeffsInv (a b : Nat) : CoeffsInv a b (euclidStart a b) := by
  constructor <;> constructor <;> simp [euclidStart]

theorem euclidPass_coeffsInv {a b : Nat} {e : EuclidState} (hr : e.r ≠ 0) (h : CoeffsInv a b e) :
    CoeffsInv a b (euclidPass e) :=
  ⟨h.1.pass hr, h.2.pass hr⟩

theorem extGcd_natAbs_le (a b : Nat) :
    (extGcd a b).1.natAbs ≤ max b 1 ∧ (extGcd a b).2.1.natAbs ≤ max a 1 := by
  obtain ⟨hs, ht⟩ : CoeffsInv a b (euclidLoop b (euclidStart a b)) :=
    euclidLoop_induct (fun _ => euclidPass_coeffsInv) b _ (euclidStart_coeffsInv a b)
  exact ⟨hs.old_le, ht.old_le⟩

/-- Settles O18, by the invariant of the two coefficient columns; the loop keeps it at a = b = 0 too. -/
theorem bezoutMagnitudesAreBounded : Obligations.BezoutMagnitudesAreBounded :=
  fun a b _ => extGcd_natAbs_le a b

/-! ### R143's inverse -/

/-- Two inverses below `phi` are the same. -/
theorem eq_of_mul_mod_eq_one {phi e d d' : Nat} (hd : d < phi) (hd' : d' < phi)
    (h : e * d % phi = 1 % phi) (h' : e * d' % phi = 1 % phi) : d = d' := by
  have hcop : Nat.gcd phi e = 1 := (Nat.coprime_of_mul_modEq_one d h).symm
  have hmod : d ≡ d' [MOD phi] := Nat.ModEq.cancel_left_of_coprime hcop (h.trans h'.symm)
  exact hmod.eq_of_lt_of_lt hd hd'

theorem modInv_eq_some_iff {phi e d : Nat} (hphi : 1 ≤ phi) :
    modInv phi e = some d ↔ d < phi ∧ e * d % phi = 1 % phi := by
  refine ⟨modInv_eq_some hphi, fun ⟨hd, hmul⟩ => ?_⟩
  cases hinv : modInv phi e with
  | none => exact absurd (Nat.coprime_of_mul_modEq_one d hmul) ((modInv_eq_none_iff phi e).mp hinv)
  | some d' =>
    obtain ⟨hd', hmul'⟩ := modInv_eq_some hphi hinv
    rw [eq_of_mul_mod_eq_one hd' hd hmul' hmul]

/-- Settles O19: R140's gcd decides between the two outcomes, and an inverse below `phi` is unique. -/
theorem modInvIsTheInverse : Obligations.ModInvIsTheInverse :=
  fun phi e hphi => ⟨modInv_eq_none_iff phi e, fun _ => modInv_eq_some_iff hphi⟩

/-! ### EGCD's completions (R141, R142) -/

/-- R142: a coefficient within its bound fits a register that the bounding operand fits. -/
theorem fits_of_natAbs_le {w n : Nat} {x : Int} (hw : 1 ≤ w) (hn : n < 2 ^ w) (hx : x.natAbs ≤ max n 1) :
    fits w x = true :=
  decide_eq_true (hx.trans_lt (max_lt hn (Nat.one_lt_two_pow (by omega))))

theorem egcdOutcome_of_lt {w : Nat} {rd : RegIdx} {a b : Nat} (hw : 1 ≤ w) (hrd : rd ≤ 5) (ha : a < 2 ^ w)
    (hb : b < 2 ^ w) (h0 : ¬ (a = 0 ∧ b = 0)) :
    egcdOutcome w rd a b =
      some (.results
        [(rd, (extGcd a b).1.natAbs), (rd + 1, (extGcd a b).2.1.natAbs), (rd + 2, (extGcd a b).2.2)] none
        (some (decide ((extGcd a b).1 < 0), decide ((extGcd a b).2.1 < 0)))) := by
  obtain ⟨hx, hy⟩ := extGcd_natAbs_le a b
  simp [egcdOutcome, not_lt.mpr hrd, h0, fits_of_natAbs_le hw hb hx, fits_of_natAbs_le hw ha hy]

theorem egcdOutcome_zero_zero (w : Nat) {rd : RegIdx} (hrd : rd ≤ 5) :
    egcdOutcome w rd 0 0 = some (.error .invalidArgument) := by
  simp [egcdOutcome, not_lt.mpr hrd]

/-- Settles O11: R142's bound leaves no magnitude to refuse, and `extGcd_bezout` says what the loop returns. -/
theorem egcdResult : Obligations.EgcdResult := by
  intro rd ra rb s hb hrd
  refine ⟨fun hn ha hb' h0 => ?_, fun ⟨ha, hb'⟩ => ?_⟩
  · have hw : 1 ≤ s.width := by
      unfold State.width
      omega
    have hrule : ruleOutcome s (.egcd rd ra rb) = _ := egcdOutcome_of_lt hw hrd ha hb' h0
    obtain ⟨hbezout, hgcd⟩ := extGcd_bezout (s.source ra) (s.source rb)
    exact ⟨_, _, _, rfl, hgcd, hbezout, exec_of_busy_of_outcome hb hrule⟩
  · have hrule : ruleOutcome s (.egcd rd ra rb) = some (.error .invalidArgument) := by
      rw [ruleOutcome, ha, hb']
      exact egcdOutcome_zero_zero s.width hrd
    exact exec_of_busy_of_outcome hb hrule

/-! ### MODINV's completions (R144) -/

theorem modinvOutcome_of_eq_some (rd : RegIdx) {phi e d : Nat} (hphi : phi ≠ 0) (h : modInv phi e = some d) :
    modinvOutcome rd phi e = .results [(rd, d)] none none := by
  simp [modinvOutcome, hphi, h]

theorem modinvOutcome_of_eq_none (rd : RegIdx) {phi e : Nat} (hphi : phi ≠ 0) (h : modInv phi e = none) :
    modinvOutcome rd phi e = .error .noInverse := by
  simp [modinvOutcome, hphi, h]

theorem modinvOutcome_zero (rd : RegIdx) (e : Nat) : modinvOutcome rd 0 e = .error .invalidArgument :=
  if_pos rfl

/-- Settles O13, by the outcomes of R143's function and the zero modulus. -/
theorem modinvResult : Obligations.ModinvResult := by
  intro rd ra rb s hb
  have hexec : exec (.modinv rd ra rb) s =
      .next (s.complete (modinvOutcome rd (s.source ra) (s.source rb))) :=
    exec_of_busy_of_outcome hb rfl
  refine ⟨fun hphi hgcd => ?_, fun hphi hgcd => ?_, fun hphi => ?_⟩
  · have hsome : modInv (s.source ra) (s.source rb) ≠ none := fun hnone =>
      (modInv_eq_none_iff _ _).mp hnone hgcd
    obtain ⟨d, hd⟩ := Option.ne_none_iff_exists'.mp hsome
    obtain ⟨hlt, hmul⟩ := modInv_eq_some (Nat.pos_of_ne_zero hphi) hd
    refine ⟨d, hlt, hmul, ?_⟩
    rw [hexec, modinvOutcome_of_eq_some rd hphi hd]
    rfl
  · rw [hexec, modinvOutcome_of_eq_none rd hphi ((modInv_eq_none_iff _ _).mpr hgcd)]
    rfl
  · rw [hexec, hphi, modinvOutcome_zero]
    rfl

end Sys2Proof.Machine

/-! The pre-filter and one Miller–Rabin round (spec/43_miller_rabin.md). -/

namespace Sys2Proof.Machine

/-! ### The pre-filter (R160) -/

theorem trialDivide_composite {n : Nat} {ps : List Nat} (h : trialDivide n ps = .composite) :
    ∃ p ∈ ps, p ∣ n ∧ p ≠ n := by
  induction ps with
  | nil => cases h
  | cons p ps ih =>
    rw [trialDivide] at h
    split at h
    · cases h
    · next hne =>
      split at h
      · next hdvd => exact ⟨p, List.mem_cons_self, Nat.dvd_of_mod_eq_zero hdvd, Ne.symm hne⟩
      · obtain ⟨q, hq, hdiv⟩ := ih h
        exact ⟨q, List.mem_cons_of_mem p hq, hdiv⟩

theorem trialDivide_probablyPrime {n : Nat} {ps : List Nat} (h : trialDivide n ps = .probablyPrime) : n ∈ ps := by
  induction ps with
  | nil => cases h
  | cons p ps ih =>
    rw [trialDivide] at h
    split at h
    · next heq => exact heq ▸ List.mem_cons_self
    · split at h
      · cases h
      · exact List.mem_cons_of_mem p (ih h)

theorem trialDivide_proceed {n : Nat} {ps : List Nat} (h : trialDivide n ps = .proceed) :
    ∀ p ∈ ps, n % p ≠ 0 := by
  induction ps with
  | nil => exact fun p hp => nomatch hp
  | cons p ps ih =>
    rw [trialDivide] at h
    split at h
    · cases h
    · split at h
      · cases h
      · next hndvd => exact List.forall_mem_cons.mpr ⟨hndvd, ih h⟩

theorem prime_of_mem_smallPrimes : ∀ p ∈ smallPrimes, Nat.Prime p := by
  norm_num [smallPrimes]

theorem prefilter_composite {n : Nat} (h : prefilter n = .composite) :
    n < 2 ∨ ∃ p ∈ smallPrimes, p ∣ n ∧ p ≠ n := by
  unfold prefilter at h
  split at h
  · next hlt => exact .inl hlt
  · split at h
    · cases h
    · next hne =>
      split at h
      · next heven => exact .inr ⟨2, by decide, Nat.dvd_of_mod_eq_zero heven, by omega⟩
      · exact .inr (trialDivide_composite h)

theorem prefilter_probablyPrime {n : Nat} (h : prefilter n = .probablyPrime) : n ∈ smallPrimes := by
  unfold prefilter at h
  split at h
  · cases h
  · split at h
    · next heq => rcases heq with rfl | rfl <;> decide
    · split at h
      · cases h
      · exact trialDivide_probablyPrime h

theorem prefilter_proceed {n : Nat} (h : prefilter n = .proceed) : ∀ p ∈ smallPrimes, n % p ≠ 0 := by
  unfold prefilter at h
  split at h
  · cases h
  · split at h
    · cases h
    · split at h
      · cases h
      · exact trialDivide_proceed h

theorem prefilter_ne_proceed_of_lt : ∀ n < 31, prefilter n ≠ .proceed := by decide

theorem le_of_prefilter_proceed {n : Nat} (h : prefilter n = .proceed) : 31 ≤ n :=
  Nat.not_lt.mp fun hlt => prefilter_ne_proceed_of_lt n hlt h

theorem not_prime_of_prefilter_composite {n : Nat} (h : prefilter n = .composite) : ¬ Nat.Prime n := by
  intro hn
  rcases prefilter_composite h with hlt | ⟨p, hp, hdvd, hne⟩
  · exact absurd hn.two_le (Nat.not_le.mpr hlt)
  · exact hne ((Nat.prime_dvd_prime_iff_eq (prime_of_mem_smallPrimes p hp) hn).mp hdvd)

/-- Settles O20, by the way each outcome is reached; that a candidate below 31 is decided is a finite check. -/
theorem prefilterIsRight : Obligations.PrefilterIsRight := fun n =>
  ⟨not_prime_of_prefilter_composite,
    fun h => prime_of_mem_smallPrimes n (prefilter_probablyPrime h),
    fun h => ⟨Nat.mod_two_ne_zero.mp (prefilter_proceed h 2 (by decide)), le_of_prefilter_proceed h,
      prefilter_proceed h⟩,
    prefilter_ne_proceed_of_lt n⟩

/-! ### The decomposition (R161) -/

/-- R161's loop keeps `2^k * m`, and with fuel for the bits of `m` it ends at an odd one. -/
theorem halveLoop_spec (fuel k m : Nat) (hm : m ≠ 0) (hfuel : bitlen m ≤ fuel) :
    2 ^ (halveLoop fuel k m).1 * (halveLoop fuel k m).2 = 2 ^ k * m ∧ (halveLoop fuel k m).2 % 2 = 1 := by
  induction fuel generalizing k m with
  | zero =>
    rw [bitlen_succ_half hm] at hfuel
    cases hfuel
  | succ fuel ih =>
    rw [halveLoop]
    split
    · next heven =>
      rw [bitlen_succ_half hm] at hfuel
      obtain ⟨hprod, hodd⟩ := ih (k + 1) (m / 2) (by omega) (by omega)
      refine ⟨?_, hodd⟩
      rw [hprod, pow_succ, mul_assoc, Nat.mul_div_cancel' (Nat.dvd_of_mod_eq_zero heven)]
    · next hodd => exact ⟨rfl, Nat.mod_two_ne_zero.mp hodd⟩

theorem decompose_spec {n : Nat} (hn : 2 ≤ n) :
    n - 1 = 2 ^ (decompose n).1 * (decompose n).2 ∧ (decompose n).2 % 2 = 1 := by
  obtain ⟨hprod, hodd⟩ := halveLoop_spec (bitlen (n - 1)) 0 (n - 1) (by omega) le_rfl
  rw [pow_zero, one_mul] at hprod
  exact ⟨hprod.symm, hodd⟩

/-- For an odd `n` the decomposition halves at least once. -/
theorem decompose_fst_pos {n : Nat} (hn : 2 ≤ n) (hodd : n % 2 = 1) : 0 < (decompose n).1 := by
  obtain ⟨hprod, hm⟩ := decompose_spec hn
  refine Nat.pos_of_ne_zero fun hk => ?_
  rw [hk, pow_zero, one_mul] at hprod
  omega

/-! ### The round (R162) -/

/-- R162's loop passes where one of the next `k` squares is `n - 1`. -/
theorem squareLoop_iff (n k x : Nat) :
    squareLoop n k x = true ↔ ∃ j < k, x ^ 2 ^ (j + 1) % n = n - 1 := by
  induction k generalizing x with
  | zero => simp [squareLoop]
  | succ k ih =>
    have hhead : x ^ 2 ^ (0 + 1) % n = mulMod x x n := by rw [mulMod, ← pow_two]; rfl
    have htail : ∀ j, x ^ 2 ^ (j + 1 + 1) % n = mulMod x x n ^ 2 ^ (j + 1) % n := fun j => by
      rw [mulMod, ← Nat.pow_mod, ← pow_two, ← pow_mul, ← pow_succ']
    rw [Nat.exists_lt_succ_left, hhead]
    simp only [htail, ← ih]
    rw [squareLoop]
    split
    · next heq => simp [heq]
    · next hne => simp [hne]

/-- R162 in powers of the witness: the start `a^m` is the square of index 0, and the loop makes the later ones. -/
theorem mrRoundPass_iff {n : Nat} (a : Nat) (hn : 2 ≤ n) (hodd : n % 2 = 1) :
    mrRoundPass n a = true ↔
      a ^ (decompose n).2 % n = 1 ∨ ∃ j < (decompose n).1, a ^ (2 ^ j * (decompose n).2) % n = n - 1 := by
  have hpos := decompose_fst_pos hn hodd
  unfold mrRoundPass
  generalize decompose n = d at hpos ⊢
  obtain ⟨k, m⟩ := d
  obtain ⟨k, rfl⟩ := Nat.exists_eq_succ_of_ne_zero (Nat.pos_iff_ne_zero.mp hpos)
  have hsquare : ∀ j, (a ^ m % n) ^ 2 ^ (j + 1) % n = a ^ (2 ^ (j + 1) * m) % n := fun j => by
    rw [← Nat.pow_mod, ← pow_mul, mul_comm]
  simp only [powMod_eq_pow a m n (by omega), Nat.exists_lt_succ_left, pow_zero, one_mul, Nat.succ_sub_one,
    ← hsquare, ← squareLoop_iff]
  split
  · next hstart => simpa using or_assoc.mp (.inl hstart)
  · next hstart =>
    obtain ⟨hne, hne'⟩ := not_or.mp hstart
    simp [hne, hne']

/-- Settles O21, with R161's decomposition for `k` and `m`. -/
theorem roundPassInPowers : Obligations.RoundPassInPowers := by
  intro n a hn hodd _ _
  obtain ⟨hprod, hm⟩ := decompose_spec (n := n) (by omega)
  exact ⟨_, _, hprod, hm, mrRoundPass_iff a (by omega) hodd⟩

/-- Where 1 has only the square roots 1 and -1, an iterated square that reaches 1 started there or passed through -1. -/
theorem eq_one_or_pow_eq_neg_one {R : Type*} [CommRing R] [NoZeroDivisors R] {x : R} {k : Nat}
    (h : x ^ 2 ^ k = 1) : x = 1 ∨ ∃ j < k, x ^ 2 ^ j = -1 := by
  induction k with
  | zero => exact .inl (by simpa using h)
  | succ k ih =>
    rw [pow_succ, pow_mul] at h
    rcases sq_eq_one_iff.mp h with h1 | hneg
    · exact (ih h1).imp_right fun ⟨j, hj, hpow⟩ => ⟨j, Nat.lt_succ_of_lt hj, hpow⟩
    · exact .inr ⟨k, Nat.lt_succ_self k, hneg⟩

theorem mod_eq_one_of_cast_eq_one {n x : Nat} (hn : 2 ≤ n) (h : (x : ZMod n) = 1) : x % n = 1 := by
  rw [← Nat.cast_one, ZMod.natCast_eq_natCast_iff'] at h
  rwa [Nat.mod_eq_of_lt hn] at h

theorem mod_eq_pred_of_cast_eq_neg_one {n x : Nat} (hn : 2 ≤ n) (h : (x : ZMod n) = -1) : x % n = n - 1 := by
  have hpred : (-1 : ZMod n) = (n - 1 : Nat) := by
    rw [Nat.cast_sub (by omega), ZMod.natCast_self, Nat.cast_one, zero_sub]
  rw [hpred, ZMod.natCast_eq_natCast_iff'] at h
  rwa [Nat.mod_eq_of_lt (by omega : n - 1 < n)] at h

/-- Settles O22: by Fermat's little theorem the squares of `a^m` reach 1, and modulo a prime 1 has only two roots. -/
theorem primePassesEveryRound : Obligations.PrimePassesEveryRound := by
  intro n a hprime hn ha hle
  have hfact : Fact n.Prime := ⟨hprime⟩
  have hodd : n % 2 = 1 := hprime.eq_two_or_odd.resolve_left (by omega)
  obtain ⟨hprod, -⟩ := decompose_spec hprime.two_le
  have hne : (a : ZMod n) ≠ 0 := fun h0 =>
    Nat.not_dvd_of_pos_of_lt (by omega) (by omega) ((ZMod.natCast_eq_zero_iff a n).mp h0)
  have hfermat : ((a : ZMod n) ^ (decompose n).2) ^ 2 ^ (decompose n).1 = 1 := by
    rw [← pow_mul, mul_comm, ← hprod, ZMod.pow_card_sub_one_eq_one hne]
  rw [mrRoundPass_iff a hprime.two_le hodd]
  refine (eq_one_or_pow_eq_neg_one hfermat).imp (fun h1 => ?_) fun ⟨j, hj, hneg⟩ => ⟨j, hj, ?_⟩
  · exact mod_eq_one_of_cast_eq_one hprime.two_le (by rw [Nat.cast_pow, h1])
  · refine mod_eq_pred_of_cast_eq_neg_one hprime.two_le ?_
    rw [Nat.cast_pow, mul_comm, pow_mul, hneg]

end Sys2Proof.Machine

/-! The witness sampler and the rounds of MRTEST (spec/43_miller_rabin.md). -/

namespace Sys2Proof.Machine

/-! ### The sampler (R164) -/

/-- R164's `t`: what one pass of the sampler reads from the front of the responses. -/
def sampleValue (n : Nat) (rs : List Word) : Nat :=
  concatResponses (rs.take (samplerWords n)) % 2 ^ samplerBits n

theorem drawLoop_of_short {n : Nat} {rs : List Word} (h : rs.length < samplerWords n) (fuel : Nat) :
    drawLoop n (fuel + 1) rs = none :=
  if_pos h

theorem drawLoop_of_accept {n : Nat} {rs : List Word} (hlen : samplerWords n ≤ rs.length)
    (ht : sampleValue n rs < n - 3) (fuel : Nat) :
    drawLoop n (fuel + 1) rs = some (2 + sampleValue n rs, rs.drop (samplerWords n)) :=
  (if_neg (Nat.not_lt.mpr hlen)).trans (if_pos ht)

theorem drawLoop_of_reject {n : Nat} {rs : List Word} (hlen : samplerWords n ≤ rs.length)
    (ht : ¬ sampleValue n rs < n - 3) (fuel : Nat) :
    drawLoop n (fuel + 1) rs = drawLoop n fuel (rs.drop (samplerWords n)) :=
  (if_neg (Nat.not_lt.mpr hlen)).trans (if_neg ht)

/-- How a pass that leads to a witness went: it accepted its value, or it left the draw to the next pass. -/
theorem drawLoop_cases {n fuel : Nat} {rs rest : List Word} {a : Nat}
    (h : drawLoop n (fuel + 1) rs = some (a, rest)) :
    samplerWords n ≤ rs.length ∧
      (sampleValue n rs < n - 3 ∧ a = 2 + sampleValue n rs ∧ rest = rs.drop (samplerWords n) ∨
        ¬ sampleValue n rs < n - 3 ∧ drawLoop n fuel (rs.drop (samplerWords n)) = some (a, rest)) := by
  rcases Nat.lt_or_ge rs.length (samplerWords n) with hshort | hlen
  · rw [drawLoop_of_short hshort] at h
    cases h
  · refine ⟨hlen, ?_⟩
    by_cases ht : sampleValue n rs < n - 3
    · rw [drawLoop_of_accept hlen ht] at h
      cases h
      exact .inl ⟨ht, rfl, rfl⟩
    · rw [drawLoop_of_reject hlen ht] at h
      exact .inr ⟨ht, h⟩

/-- A drawn witness is in range, and at least one pass's responses are gone from the front. -/
theorem drawLoop_spec {n fuel : Nat} {rs rest : List Word} {a : Nat} (h : drawLoop n fuel rs = some (a, rest)) :
    2 ≤ a ∧ a ≤ n - 2 ∧ ∃ used, rs = used ++ rest ∧ samplerWords n ≤ used.length := by
  induction fuel generalizing rs with
  | zero => cases h
  | succ fuel ih =>
    obtain ⟨hlen, ⟨ht, rfl, rfl⟩ | ⟨-, hnext⟩⟩ := drawLoop_cases h
    · exact ⟨by omega, by omega, rs.take (samplerWords n), (List.take_append_drop _ rs).symm, by simpa using hlen⟩
    · obtain ⟨hge, hle, used, hused, -⟩ := ih hnext
      refine ⟨hge, hle, rs.take (samplerWords n) ++ used, ?_, ?_⟩
      · rw [List.append_assoc, ← hused, List.take_append_drop]
      · rw [List.length_append, List.length_take_of_le hlen]
        exact Nat.le_add_right _ _

/-- From 31 on every pass takes a response. -/
theorem samplerWords_pos {n : Nat} (hn : 31 ≤ n) : 0 < samplerWords n := by
  have hbits : samplerBits n = bitlen ((n - 3 - 1) / 2) + 1 := bitlen_succ_half (by omega)
  unfold samplerWords
  omega

/-- Settles O24, by `drawLoop_spec` for the passes that `drawWitness` allows. -/
theorem samplerStaysInRange : Obligations.SamplerStaysInRange := by
  intro n rs a rest hn h
  obtain ⟨hge, hle, used, hused, hlen⟩ := drawLoop_spec h
  exact ⟨hge, hle, used, hused, List.ne_nil_of_length_pos ((samplerWords_pos hn).trans_le hlen)⟩

/-- The first `k` limbs of `t`, as responses, concatenate to `t` modulo `2^(32k)`. -/
theorem concatResponses_limbs (k t : Nat) :
    concatResponses ((List.range k).map (limb t)) = t % 2 ^ (32 * k) := by
  induction k generalizing t with
  | zero => simp [concatResponses, Nat.mod_one]
  | succ k ih =>
    have htail : limb t ∘ Nat.succ = limb (t / 2 ^ 32) := funext fun j => by
      rw [Function.comp_apply, limb, limb, Nat.div_div_eq_div_mul, ← pow_add, Nat.mul_succ, Nat.add_comm]
    rw [List.range_succ_eq_map, List.map_cons, List.map_map, htail, concatResponses, ih, Nat.mul_succ,
      Nat.add_comm (32 * k), pow_add, Nat.mod_mul]
    simp [limb]

/-- Every value R164 may accept fits the sampler's bits. -/
theorem lt_two_pow_samplerBits {n t : Nat} (ht : t < n - 3) : t < 2 ^ samplerBits n :=
  (show t ≤ n - 3 - 1 by omega).trans_lt (lt_two_pow_bitlen _)

/-- One pass takes responses enough for the sampler's bits. -/
theorem samplerBits_le (n : Nat) : samplerBits n ≤ 32 * samplerWords n := by
  unfold samplerWords
  omega

/-- The limbs of `t` are responses from which one pass of the sampler reads `t`. -/
theorem sampleValue_limbs {n t : Nat} (ht : t < n - 3) (rest : List Word) :
    sampleValue n ((List.range (samplerWords n)).map (limb t) ++ rest) = t := by
  have hbits := lt_two_pow_samplerBits ht
  have hwords : t < 2 ^ (32 * samplerWords n) :=
    hbits.trans_le (Nat.pow_le_pow_right (by decide) (samplerBits_le n))
  rw [sampleValue, List.take_left' (by simp), concatResponses_limbs, Nat.mod_eq_of_lt hwords,
    Nat.mod_eq_of_lt hbits]

theorem drawWitness_limbs {n t : Nat} (ht : t < n - 3) (rest : List Word) :
    drawWitness n ((List.range (samplerWords n)).map (limb t) ++ rest) = some (2 + t, rest) := by
  have hval := sampleValue_limbs ht rest
  rw [drawWitness, drawLoop_of_accept (by simp) (by rwa [hval]), hval, List.drop_left' (by simp)]

/-- Settles O25: each witness `a` is drawn from the limbs of `a - 2`, one pass each. -/
theorem samplerReachesEveryWitness : Obligations.SamplerReachesEveryWitness := by
  intro n as hn has
  induction as with
  | nil => exact ⟨[], rfl⟩
  | cons a as ih =>
    obtain ⟨⟨hge, hle⟩, hrange⟩ := List.forall_mem_cons.mp has
    obtain ⟨rs, hrs⟩ := ih hrange
    refine ⟨(List.range (samplerWords n)).map (limb (a - 2)) ++ rs, ?_⟩
    have hdraw := drawWitness_limbs (n := n) (t := a - 2) (by omega) rs
    rw [Nat.add_sub_cancel' hge] at hdraw
    simp only [List.length_cons, drawWitnesses, hdraw, hrs]

/-! ### More responses (R167) -/

theorem sampleValue_append {n : Nat} {rs : List Word} (hlen : samplerWords n ≤ rs.length) (more : List Word) :
    sampleValue n (rs ++ more) = sampleValue n rs := by
  rw [sampleValue, List.take_append_of_le_length hlen, sampleValue]

/-- A draw looks at the responses it takes alone: more responses, and more fuel, leave the witness as it is. -/
theorem drawLoop_append {n fuel fuel' : Nat} {rs rest : List Word} {a : Nat} (more : List Word)
    (hfuel : fuel ≤ fuel') (h : drawLoop n fuel rs = some (a, rest)) :
    drawLoop n fuel' (rs ++ more) = some (a, rest ++ more) := by
  induction fuel generalizing fuel' rs with
  | zero => cases h
  | succ fuel ih =>
    obtain ⟨fuel', rfl⟩ := Nat.exists_eq_add_of_le' (Nat.one_le_of_lt hfuel)
    obtain ⟨hlen, hpass⟩ := drawLoop_cases h
    have hlen' : samplerWords n ≤ (rs ++ more).length := by simpa using Nat.le_add_right_of_le hlen
    have hval := sampleValue_append hlen more
    have hdrop := List.drop_append_of_le_length (l₂ := more) hlen
    rcases hpass with ⟨ht, rfl, rfl⟩ | ⟨ht, hnext⟩
    · rw [drawLoop_of_accept hlen' (by rwa [hval]), hval, hdrop]
    · rw [drawLoop_of_reject hlen' (by rwa [hval]), hdrop]
      exact ih (Nat.le_of_succ_le_succ hfuel) hnext

theorem drawWitness_append {n : Nat} {rs rest : List Word} {a : Nat} (more : List Word)
    (h : drawWitness n rs = some (a, rest)) : drawWitness n (rs ++ more) = some (a, rest ++ more) :=
  drawLoop_append more (by simp) h

/-! ### The rounds (R165) -/

theorem testRounds_of_no_witness {n : Nat} {rs : List Word} (h : drawWitness n rs = none) (k : Nat) :
    testRounds n (k + 1) rs = .needsEntropy := by
  simp only [testRounds, h]

theorem testRounds_of_pass {n a : Nat} {rs rest : List Word} (h : drawWitness n rs = some (a, rest))
    (hpass : mrRoundPass n a = true) (k : Nat) : testRounds n (k + 1) rs = testRounds n k rest := by
  simp only [testRounds, h, hpass, if_true]

theorem testRounds_of_fail {n a : Nat} {rs rest : List Word} (h : drawWitness n rs = some (a, rest))
    (hfail : mrRoundPass n a = false) (k : Nat) : testRounds n (k + 1) rs = .composite := by
  simp [testRounds, h, hfail]

theorem testRounds_append {n k : Nat} {rs : List Word} (more : List Word) (h : testRounds n k rs ≠ .needsEntropy) :
    testRounds n k (rs ++ more) = testRounds n k rs := by
  induction k generalizing rs with
  | zero => rfl
  | succ k ih =>
    cases hdraw : drawWitness n rs with
    | none => exact absurd (testRounds_of_no_witness hdraw k) h
    | some d =>
      obtain ⟨a, rest⟩ := d
      have hdraw' := drawWitness_append more hdraw
      cases hpass : mrRoundPass n a with
      | false => rw [testRounds_of_fail hdraw hpass, testRounds_of_fail hdraw' hpass]
      | true =>
        rw [testRounds_of_pass hdraw hpass] at h
        rw [testRounds_of_pass hdraw hpass, testRounds_of_pass hdraw' hpass, ih h]

theorem mrTest_of_composite {n : Nat} (h : prefilter n = .composite) (k : Nat) (rs : List Word) :
    mrTest n k rs = .composite := by
  simp only [mrTest, h]

theorem mrTest_of_probablyPrime {n : Nat} (h : prefilter n = .probablyPrime) (k : Nat) (rs : List Word) :
    mrTest n k rs = .probablyPrime := by
  simp only [mrTest, h]

theorem mrTest_of_proceed {n : Nat} (h : prefilter n = .proceed) (k : Nat) (rs : List Word) :
    mrTest n k rs = testRounds n k rs := by
  simp only [mrTest, h]

/-- Settles O26: the pre-filter asks for no response, and a decided run of rounds keeps its draws. -/
theorem decidedTestStaysDecided : Obligations.DecidedTestStaysDecided := by
  intro n k rs more h
  cases hpf : prefilter n with
  | composite => rw [mrTest_of_composite hpf, mrTest_of_composite hpf]
  | probablyPrime => rw [mrTest_of_probablyPrime hpf, mrTest_of_probablyPrime hpf]
  | proceed =>
    rw [mrTest_of_proceed hpf] at h
    rw [mrTest_of_proceed hpf, mrTest_of_proceed hpf, testRounds_append more h]

/-- The rounds of a prime pass, so they never say Composite. -/
theorem testRounds_ne_composite_of_prime {n : Nat} (hprime : Nat.Prime n) (hn : 5 ≤ n) (k : Nat) (rs : List Word) :
    testRounds n k rs ≠ .composite := by
  induction k generalizing rs with
  | zero => exact nofun
  | succ k ih =>
    cases hdraw : drawWitness n rs with
    | none => simp [testRounds_of_no_witness hdraw]
    | some d =>
      obtain ⟨a, rest⟩ := d
      obtain ⟨hge, hle, -⟩ := drawLoop_spec hdraw
      rw [testRounds_of_pass hdraw (primePassesEveryRound n a hprime hn hge hle)]
      exact ih rest

theorem mrTest_ne_composite_of_prime {n : Nat} (hprime : Nat.Prime n) (k : Nat) (rs : List Word) :
    mrTest n k rs ≠ .composite := by
  cases hpf : prefilter n with
  | composite => exact absurd hprime (not_prime_of_prefilter_composite hpf)
  | probablyPrime => simp [mrTest_of_probablyPrime hpf]
  | proceed =>
    rw [mrTest_of_proceed hpf]
    exact testRounds_ne_composite_of_prime hprime (by have := le_of_prefilter_proceed hpf; omega) k rs

/-! ### The rounds by their drawn witnesses (R165) -/

theorem drawWitnesses_succ {n k : Nat} {rs rest : List Word} {as : List Nat}
    (h : drawWitnesses n (k + 1) rs = some (as, rest)) :
    ∃ a mid as', drawWitness n rs = some (a, mid) ∧ drawWitnesses n k mid = some (as', rest) ∧ as = a :: as' := by
  rw [drawWitnesses] at h
  split at h
  · cases h
  · next a mid hdraw =>
    split at h
    · cases h
    · next as' rest' hmore =>
      cases h
      exact ⟨a, mid, as', hdraw, hmore, rfl⟩

/-- The last of `k + 1` witnesses is drawn from what the first `k` leave. -/
theorem drawWitnesses_snoc {n k : Nat} {rs rest : List Word} {as : List Nat}
    (h : drawWitnesses n (k + 1) rs = some (as, rest)) :
    ∃ init a mid, as = init ++ [a] ∧ drawWitnesses n k rs = some (init, mid) ∧
      drawWitness n mid = some (a, rest) := by
  induction k generalizing rs as with
  | zero =>
    obtain ⟨a, mid, as', hdraw, hmore, rfl⟩ := drawWitnesses_succ h
    cases hmore
    exact ⟨[], a, rs, rfl, rfl, hdraw⟩
  | succ k ih =>
    obtain ⟨a, mid, as', hdraw, hmore, rfl⟩ := drawWitnesses_succ h
    obtain ⟨init, b, mid', rfl, hinit, hlast⟩ := ih hmore
    refine ⟨a :: init, b, mid', rfl, ?_, hlast⟩
    simp only [drawWitnesses, hdraw, hinit]

/-- Rounds that pass use up their witnesses, and leave the remaining rounds to decide. -/
theorem testRounds_add_of_pass {n k : Nat} {rs rest : List Word} {as : List Nat}
    (h : drawWitnesses n k rs = some (as, rest)) (hpass : ∀ a ∈ as, mrRoundPass n a = true) (j : Nat) :
    testRounds n (k + j) rs = testRounds n j rest := by
  induction k generalizing rs as with
  | zero =>
    cases h
    rw [Nat.zero_add]
  | succ k ih =>
    obtain ⟨a, mid, as', hdraw, hmore, rfl⟩ := drawWitnesses_succ h
    obtain ⟨ha, has⟩ := List.forall_mem_cons.mp hpass
    rw [Nat.succ_add, testRounds_of_pass hdraw ha, ih hmore has]

theorem testRounds_of_all_pass {n k : Nat} {rs rest : List Word} {as : List Nat}
    (h : drawWitnesses n k rs = some (as, rest)) (hpass : ∀ a ∈ as, mrRoundPass n a = true) :
    testRounds n k rs = .probablyPrime :=
  testRounds_add_of_pass h hpass 0

/-- R165: the first failing round decides, whatever rounds were still to come. -/
theorem testRounds_of_first_fail {n k rounds a : Nat} {rs rest : List Word} {as : List Nat} (hk : k < rounds)
    (h : drawWitnesses n (k + 1) rs = some (as ++ [a], rest)) (hpass : ∀ a' ∈ as, mrRoundPass n a' = true)
    (hfail : mrRoundPass n a = false) : testRounds n rounds rs = .composite := by
  obtain ⟨j, rfl⟩ := Nat.exists_eq_add_of_lt hk
  obtain ⟨init, b, mid, heq, hinit, hlast⟩ := drawWitnesses_snoc h
  obtain ⟨rfl, hab⟩ := List.append_inj' heq rfl
  obtain rfl := List.singleton_inj.mp hab
  rw [Nat.add_assoc, testRounds_add_of_pass hinit hpass, testRounds_of_fail hlast hfail]

/-- R164: a round whose witness cannot be drawn yet waits. -/
theorem testRounds_of_short {n k rounds : Nat} {rs rest : List Word} {as : List Nat} (hk : k < rounds)
    (h : drawWitnesses n k rs = some (as, rest)) (hpass : ∀ a ∈ as, mrRoundPass n a = true)
    (hnone : drawWitness n rest = none) : testRounds n rounds rs = .needsEntropy := by
  obtain ⟨j, rfl⟩ := Nat.exists_eq_add_of_lt hk
  rw [Nat.add_assoc, testRounds_add_of_pass h hpass, testRounds_of_no_witness hnone]

end Sys2Proof.Machine

/-! MRROUND's and MRTEST's completions, and MRTEST's wait for the entropy source (spec/43_miller_rabin.md). -/

namespace Sys2Proof.Machine

/-! ### MRROUND (R163) -/

theorem mrroundOutcome_of_domain {n a : Nat} (hn : 5 ≤ n) (hodd : n % 2 = 1) (hge : 2 ≤ a) (hle : a ≤ n - 2) :
    mrroundOutcome n a = .results [] (some (mrRoundPass n a)) none := by
  rw [mrroundOutcome, if_neg (by omega), if_neg (by omega)]

theorem mrroundOutcome_outside {n a : Nat} (h : n < 5 ∨ n % 2 = 0 ∨ a < 2 ∨ n - 2 < a) :
    mrroundOutcome n a = .error .invalidArgument := by
  rw [mrroundOutcome]
  split
  · rfl
  · next hn => exact if_pos (by omega)

/-- Settles O14, by the two sides of R163's domain. -/
theorem mrroundResult : Obligations.MrroundResult := by
  intro ra rb s hb
  have hexec : exec (.mrround ra rb) s = .next (s.complete (mrroundOutcome (s.source ra) (s.source rb))) :=
    exec_of_busy_of_outcome hb rfl
  refine ⟨fun hn hodd hge hle => ?_, fun hbad => ?_⟩
  · rw [hexec, mrroundOutcome_of_domain hn hodd hge hle]
    rfl
  · rw [hexec, mrroundOutcome_outside hbad]
    rfl

/-! ### MRTEST (R165) -/

section
variable {ra : RegIdx} {s : State}

theorem exec_mrtest_of_composite (hb : s.busy = true)
    (h : mrTest (s.source ra) s.sourceRounds s.responses = .composite) :
    exec (.mrtest ra) s =
      .next { s with seq := .idle, status := { s.status with done := true, result := false } } :=
  have hrule : ruleOutcome s (.mrtest ra) = some (.results [] (some false) none) := congrArg mrtestOutcome h
  exec_of_busy_of_outcome hb hrule

theorem exec_mrtest_of_probablyPrime (hb : s.busy = true)
    (h : mrTest (s.source ra) s.sourceRounds s.responses = .probablyPrime) :
    exec (.mrtest ra) s =
      .next { s with seq := .idle, status := { s.status with done := true, result := true } } :=
  have hrule : ruleOutcome s (.mrtest ra) = some (.results [] (some true) none) := congrArg mrtestOutcome h
  exec_of_busy_of_outcome hb hrule

theorem exec_mrtest_of_needsEntropy {c : Held} (hc : s.seq = .busy c)
    (h : mrTest (s.source ra) s.sourceRounds s.responses = .needsEntropy) :
    exec (.mrtest ra) s = .next { s with seq := .busy { c with requested := true } } := by
  have hstart : s.start (.mrtest ra) = s := State.start_of_busy (State.busy_of_seq hc) _
  have hrule : ruleOutcome s (.mrtest ra) = none := congrArg mrtestOutcome h
  rw [exec_mrtest_of_no_outcome (by rwa [hstart]), hstart, State.requestEntropy_of_busy hc]

end

/-- Settles O15: how far the rounds get on the drawn witnesses decides the test. -/
theorem mrtestResult : Obligations.MrtestResult := by
  intro ra s hb
  refine ⟨fun hpf => ?_, fun hpf => ?_, fun as rest hpf hdraw hpass => ?_,
    fun k as a rest hpf hk hdraw hpass hfail => ?_, fun c k as rest hc hpf hk hdraw hpass hnone => ?_⟩
  · exact exec_mrtest_of_composite hb (mrTest_of_composite hpf _ _)
  · exact exec_mrtest_of_probablyPrime hb (mrTest_of_probablyPrime hpf _ _)
  · exact exec_mrtest_of_probablyPrime hb
      ((mrTest_of_proceed hpf _ _).trans (testRounds_of_all_pass hdraw hpass))
  · exact exec_mrtest_of_composite hb
      ((mrTest_of_proceed hpf _ _).trans (testRounds_of_first_fail hk hdraw hpass hfail))
  · exact exec_mrtest_of_needsEntropy hc
      ((mrTest_of_proceed hpf _ _).trans (testRounds_of_short hk hdraw hpass hnone))

/-- Settles O16: with no round to run R165's loop says ProbablyPrime at once. -/
theorem zeroRoundsGiveProbablyPrime : Obligations.ZeroRoundsGiveProbablyPrime := by
  intro ra s hb hrounds
  refine ⟨fun hpf => exec_mrtest_of_composite hb (mrTest_of_composite hpf _ _), ?_⟩
  rintro (hpf | hpf)
  · exact exec_mrtest_of_probablyPrime hb (mrTest_of_probablyPrime hpf _ _)
  · refine exec_mrtest_of_probablyPrime hb ?_
    rw [mrTest_of_proceed hpf, hrounds]
    rfl

/-- Settles O23: a prime's test is never Composite, and a wait is no completion. -/
theorem mrtestNeverRejectsAPrime : Obligations.MrtestNeverRejectsAPrime := by
  intro ra s t hb hprime hexec hidle
  obtain ⟨c, hc⟩ := State.busy_iff.mp hb
  cases htest : mrTest (s.source ra) s.sourceRounds s.responses with
  | composite => exact absurd htest (mrTest_ne_composite_of_prime hprime _ _)
  | probablyPrime =>
    cases (exec_mrtest_of_probablyPrime hb htest).symm.trans hexec
    rfl
  | needsEntropy =>
    cases (exec_mrtest_of_needsEntropy hc htest).symm.trans hexec
    cases hidle

/-! ### The entropy source (R164) -/

theorem State.entropyResponse_of_requested {s : State} {c : Held} (hc : s.seq = .busy c)
    (h : c.requested = true) (w : Word) :
    s.entropyResponse w =
      { s with seq := .busy { c with requested := false, responses := c.responses ++ [w] } } := by
  simp [State.entropyResponse, hc, h]

theorem State.entropyResponse_of_not_requested {s : State} {c : Held} (hc : s.seq = .busy c)
    (h : c.requested = false) (w : Word) : s.entropyResponse w = s := by
  simp [State.entropyResponse, hc, h]

/-- Settles O55; a wait whose request is outstanding already sets nothing new. -/
theorem entropyRequestAndResponse : Obligations.EntropyRequestAndResponse := by
  intro s c w hc
  refine ⟨fun h => State.entropyResponse_of_requested hc h w,
    fun h => State.entropyResponse_of_not_requested hc h w, fun ra hreq htest => ?_⟩
  have hsame : ({ c with requested := true } : Held) = c := by rw [← hreq]
  rw [exec_mrtest_of_needsEntropy hc htest, hsame, ← hc]

end Sys2Proof.Machine

/-! Exceptions (spec/60_exceptions.md): the error a completion reports and what it leaves, which steps answer, the order
of a transaction and a completion in one cycle, and the interrupt line. -/

namespace Sys2Proof.Machine

/-! ### The two ways a held command's step answers -/

/-- A held command completes or waits (R24; spec/43_miller_rabin.md R164). -/
theorem sequencerStep_complete_or_wait {s t : State} (hb : s.busy = true) (h : sequencerStep s = .next t) :
    (∃ o, t = s.complete o) ∨ t = s.requestEntropy := by
  cases ht : t.seq with
  | idle =>
    obtain ⟨o, ho, -⟩ := sequencerStep_complete hb h ht
    exact .inl ⟨o, ho⟩
  | busy c => exact .inr (sequencerStep_wait hb h (State.busy_of_seq ht)).1

theorem State.requestEntropy_status (s : State) : s.requestEntropy.status = s.status := by
  rw [State.requestEntropy_eq]

/-! ### Which error (R201, R202) -/

/-- The code a completion with this outcome leaves in ERR, where ERR was NONE. -/
def Outcome.err : Outcome → ErrCode
  | .error c => c
  | .results _ _ _ => .none

theorem State.complete_err {s : State} (h : s.status.err = .none) (o : Outcome) :
    (s.complete o).status.err = o.err := by
  cases o with
  | error c => rfl
  | results ws res sg =>
    rw [State.complete_results_status, Status.setDone_err, State.writeFlags_err, h]
    rfl

/-- The errors of a well-formed command's rule are those its latched operands call for. -/
structure ErrMatches (u : State) (i : Instr) (o : Outcome) : Prop where
  illegal : o.err ≠ .illegalCommand
  invalid : o.err = .invalidArgument ↔ badArgument u i
  noInverse : o.err = .noInverse ↔ noInverseOperands u i

section
variable {u : State} {i : Instr}

theorem errMatches_invalidArgument (hbad : badArgument u i) (hinv : ¬ noInverseOperands u i) :
    ErrMatches u i (.error .invalidArgument) :=
  ⟨nofun, iff_of_true rfl hbad, iff_of_false nofun hinv⟩

theorem errMatches_noInverse (hbad : ¬ badArgument u i) (hinv : noInverseOperands u i) :
    ErrMatches u i (.error .noInverse) :=
  ⟨nofun, iff_of_false nofun hbad, iff_of_true rfl hinv⟩

theorem errMatches_results {ws : List (RegIdx × Nat)} {res : Option Bool} {sg : Option (Bool × Bool)}
    (hbad : ¬ badArgument u i) (hinv : ¬ noInverseOperands u i) : ErrMatches u i (.results ws res sg) :=
  ⟨nofun, iff_of_false nofun hbad, iff_of_false nofun hinv⟩

end

theorem errMatches_egcd {u : State} {rd ra rb : RegIdx} {o : Outcome} (hrd : rd ≤ 5)
    (h : egcdOutcome u.width rd (u.source ra) (u.source rb) = some o) : ErrMatches u (.egcd rd ra rb) o := by
  rw [egcdOutcome, if_neg (not_lt.mpr hrd)] at h
  split at h
  · next h0 => cases h; exact errMatches_invalidArgument h0 id
  · next h0 =>
    simp only at h
    split at h
    · cases h; exact errMatches_results h0 id
    · cases h

theorem errMatches_modinv (u : State) (rd ra rb : RegIdx) :
    ErrMatches u (.modinv rd ra rb) (modinvOutcome rd (u.source ra) (u.source rb)) := by
  by_cases hphi : u.source ra = 0
  · rw [hphi, modinvOutcome_zero]
    exact errMatches_invalidArgument hphi fun hinv => hinv.1 hphi
  · cases hd : modInv (u.source ra) (u.source rb) with
    | none =>
      rw [modinvOutcome_of_eq_none rd hphi hd]
      exact errMatches_noInverse hphi ⟨hphi, (modInv_eq_none_iff _ _).mp hd⟩
    | some d =>
      rw [modinvOutcome_of_eq_some rd hphi hd]
      refine errMatches_results hphi fun ⟨_, hgcd⟩ => ?_
      cases hd.symm.trans ((modInv_eq_none_iff _ _).mpr hgcd)

theorem errMatches_mrround (u : State) (ra rb : RegIdx) :
    ErrMatches u (.mrround ra rb) (mrroundOutcome (u.source ra) (u.source rb)) := by
  by_cases hbad : badArgument u (.mrround ra rb)
  · rw [mrroundOutcome_outside hbad]
    exact errMatches_invalidArgument hbad id
  · have hdom := hbad
    simp only [badArgument, not_or] at hdom
    obtain ⟨hn, hodd, hge, hle⟩ := hdom
    rw [mrroundOutcome_of_domain (by omega) (by omega) (by omega) (by omega)]
    exact errMatches_results hbad id

theorem ruleOutcome_errMatches {u : State} {i : Instr} {o : Outcome} (hwf : i.wf = true)
    (h : ruleOutcome u i = some o) : ErrMatches u i o := by
  cases i with
  | modmul rd ra rb rm =>
    cases h
    by_cases hm : u.source rm = 0
    · rw [hm, modmulOutcome_zero]
      exact errMatches_invalidArgument hm id
    · rw [modmulOutcome_of_ne_zero rd _ _ hm]
      exact errMatches_results hm id
  | modexp rd ra rb rm =>
    cases h
    by_cases hm : u.source rm = 0
    · rw [hm, modexpOutcome_zero]
      exact errMatches_invalidArgument hm id
    · rw [modexpOutcome_of_ne_zero rd _ _ hm]
      exact errMatches_results hm id
  | egcd rd ra rb => exact errMatches_egcd (of_decide_eq_true hwf) h
  | modinv rd ra rb => cases h; exact errMatches_modinv u rd ra rb
  | mrround ra rb => cases h; exact errMatches_mrround u ra rb
  | mrtest ra =>
    simp only [ruleOutcome, mrtestOutcome] at h
    split at h <;> cases h <;> exact errMatches_results id id

/-- Settles O27: an illegal word has one error only, and a legal word's rule gives the error its operands call for. -/
theorem errorCodeOfACompletion : Obligations.ErrorCodeOfACompletion := by
  intro s t h hs herr hx
  have hb := State.busy_of_seq hs
  rcases sequencerStep_cases hs hx with ⟨⟨e, he⟩, rfl⟩ | ⟨i, hd, hexec⟩
  · have hnone : ∀ i, decodeWord h.word ≠ .ok i := fun i hi => by cases he.symm.trans hi
    have hl : legal h.word = false := by
      rw [Bool.eq_false_iff, Ne, legal_iff_decodeWord_ok]
      exact fun ⟨i, hi⟩ => hnone i hi
    exact ⟨iff_of_true rfl hl, iff_of_false nofun fun ⟨i, hi, _⟩ => hnone i hi,
      iff_of_false nofun fun ⟨i, hi, _⟩ => hnone i hi⟩
  · have hl : legal h.word ≠ false := by
      rw [(legal_iff_decodeWord_ok h.word).mpr ⟨i, hd⟩]
      nofun
    simp only [hd, Except.ok.injEq, exists_eq_left']
    rcases exec_cases hexec with ⟨o, ho, rfl⟩ | ⟨ra, rfl, ho, rfl⟩ <;> rw [State.start_of_busy hb] at ho ⊢
    · obtain ⟨hill, hinvalid, hinverse⟩ := ruleOutcome_errMatches (encodeOfDecode _ i hd).2 ho
      rw [State.complete_err herr]
      exact ⟨iff_of_false hill hl, hinvalid, hinverse⟩
    · rw [State.requestEntropy_status, herr]
      exact ⟨iff_of_false nofun hl, iff_of_false nofun id, iff_of_false nofun id⟩

/-- Settles O28: with ERR still NONE after it, a step was a success or a wait. -/
theorem failedCommandWritesNothing : Obligations.FailedCommandWritesNothing := by
  intro s t h hs herr hx hne
  rcases sequencerStep_complete_or_wait (State.busy_of_seq hs) hx with ⟨o, rfl⟩ | rfl
  · cases o with
    | error c => rfl
    | results ws res sg => exact absurd (State.complete_err herr _) hne
  · exact absurd ((congrArg Status.err s.requestEntropy_status).trans herr) hne

/-! ### From IDLE, ERR stays until an acceptance or a reset (R200) -/

/-- Between `s` and `t`, ERR stayed, a command was accepted, or a reset cleared STATUS. -/
def ErrStaysUnlessCleared (s t : State) : Prop :=
  t.status.err = s.status.err ∨ t.busy = true ∨ t.status = Status.zero

section
variable {s t : State} {a : Access} {e : Event}

theorem State.hostAccess_err (h : s.hostAccess a = .next t) : ErrStaysUnlessCleared s t := by
  obtain ⟨-, rfl | ⟨-, -, rfl⟩ | ⟨-, -, rfl⟩⟩ := State.hostAccess_cases h
  · exact .inl rfl
  · rcases s.writeLoc_cases a.wdata (locate (a.addr - s.base)) with
      e | e | ⟨b, e⟩ | ⟨-, e⟩ | ⟨-, -, e⟩ | e | e | ⟨-, i, j, -, e⟩ <;> rw [e]
    · exact .inl rfl
    · exact .inr (.inr s.softReset_status)
    · exact .inl rfl
    · exact .inl rfl
    · exact .inr (.inl rfl)
    · exact .inl rfl
    · exact .inl rfl
    · exact .inl rfl
  · rw [State.afterRead_eq]
    exact .inl rfl

theorem State.driveReset_err (s : State) (level : Bool) : ErrStaysUnlessCleared s (s.driveReset level) := by
  rcases s.driveReset_cases level with ⟨-, -, e⟩ | e <;> rw [e]
  · exact .inl rfl
  · exact .inr (.inr s.hardReset_status)

/-- From IDLE only the host and the reset pin reach STATUS: no command is in flight beside a transaction. -/
theorem eventStep_err_of_idle (hidle : s.seq = .idle) (h : eventStep s e = .next t) :
    ErrStaysUnlessCleared s t := by
  cases e with
  | sequencer =>
    rw [eventStep, sequencerStep_of_idle hidle] at h
    cases h
    exact .inl rfl
  | host a => exact State.hostAccess_err h
  | entropy w =>
    cases h
    rw [State.entropyResponse_eq]
    exact .inl rfl
  | resetPin level => cases h; exact s.driveReset_err level
  | sameCycle a first =>
    rw [eventStep, sameCycleStep_of_not_busy first (State.busy_of_idle hidle)] at h
    exact State.hostAccess_err h

theorem resetStep_err (h : resetStep s e = .next t) : ErrStaysUnlessCleared s t := by
  cases e with
  | resetPin level => cases h; exact s.driveReset_err level
  | sequencer => cases h; exact .inl rfl
  | host a => cases h; exact .inl rfl
  | entropy w => cases h; exact .inl rfl
  | sameCycle a first => cases h; exact .inl rfl

end

/-- Settles O29, by what an event does to ERR with `rst_n` high and low. -/
theorem errorStaysUntilAcceptanceOrReset : Obligations.ErrorStaysUntilAcceptanceOrReset := by
  intro s t hidle h
  cases ha : s.agenda with
  | nil =>
    cases (step_of_nil_idle ha hidle).symm.trans h
    exact .inl rfl
  | cons e rest =>
    cases hr : s.rstN with
    | true => exact eventStep_err_of_idle (s := { s with agenda := rest }) hidle (step_of_cons hr ha ▸ h)
    | false => exact resetStep_err (s := { s with agenda := rest }) (step_of_cons_low hr ha ▸ h)

/-! ### Which steps answer (R203) -/

/-- EGCD's rule has an outcome for operands that fit the registers (spec/42_egcd_modinv.md R142). -/
theorem egcdOutcome_isSome {w : Nat} (rd : RegIdx) {a b : Nat} (hw : 1 ≤ w) (ha : a < 2 ^ w) (hb : b < 2 ^ w) :
    ∃ o, egcdOutcome w rd a b = some o := by
  by_cases hrd : rd ≤ 5
  · by_cases h0 : a = 0 ∧ b = 0
    · obtain ⟨rfl, rfl⟩ := h0
      exact ⟨_, egcdOutcome_zero_zero w hrd⟩
    · exact ⟨_, egcdOutcome_of_lt hw hrd ha hb h0⟩
  · exact ⟨_, if_pos (not_le.mp hrd)⟩

theorem State.Inv.width_pos {s : State} (hs : s.Inv) : 1 ≤ s.width := by
  have := hs.nlimb_pos
  unfold State.width
  omega

/-- Every rule but MRTEST's has an outcome. -/
theorem State.Inv.ruleOutcome_isSome {s : State} (hs : s.Inv) {i : Instr} (hi : ∀ ra, i ≠ .mrtest ra) :
    ∃ o, ruleOutcome s i = some o := by
  cases i with
  | modmul rd ra rb rm => exact ⟨_, rfl⟩
  | modexp rd ra rb rm => exact ⟨_, rfl⟩
  | egcd rd ra rb => exact egcdOutcome_isSome rd hs.width_pos (hs.source_lt ra) (hs.source_lt rb)
  | modinv rd ra rb => exact ⟨_, rfl⟩
  | mrround ra rb => exact ⟨_, rfl⟩
  | mrtest ra => exact absurd rfl (hi ra)

/-- Every held command but MRTEST completes. -/
theorem State.Inv.sequencerStep_completes {s : State} {h : Held} (hs : s.Inv) (hseq : s.seq = .busy h)
    (hm : ∀ ra, decodeWord h.word ≠ .ok (.mrtest ra)) : ∃ o, Machine.sequencerStep s = .next (s.complete o) := by
  cases hd : decodeWord h.word with
  | error e => exact ⟨.error .illegalCommand, by simp only [Machine.sequencerStep, hseq, runWord, hd]; rfl⟩
  | ok i =>
    obtain ⟨o, ho⟩ := hs.ruleOutcome_isSome (i := i) (by rintro ra rfl; exact hm ra hd)
    have hexec := exec_of_busy_of_outcome (State.busy_of_seq hseq) ho
    exact ⟨o, (sequencerStep_of_holds ⟨h, hseq, hd⟩).trans hexec⟩

/-- Settles O35: a completion leaves the sequencer IDLE and DONE set. -/
theorem heldCommandCompletes : Obligations.HeldCommandCompletes := by
  intro s h hs hseq hm
  obtain ⟨o, ho⟩ := hs.sequencerStep_completes hseq hm
  exact ⟨_, ho, s.complete_seq o, s.complete_done o⟩

/-- A step of the sequencer always answers: an MRTEST that cannot complete waits. -/
theorem State.Inv.sequencerStep_answers {s : State} (hs : s.Inv) : ∃ t, Machine.sequencerStep s = .next t := by
  cases hseq : s.seq with
  | idle => exact ⟨s, sequencerStep_of_idle hseq⟩
  | busy h =>
    by_cases hm : ∃ ra, decodeWord h.word = .ok (.mrtest ra)
    · obtain ⟨ra, hd⟩ := hm
      rw [sequencerStep_of_holds ⟨h, hseq, hd⟩]
      cases ho : ruleOutcome (s.start (.mrtest ra)) (.mrtest ra) with
      | some o => exact ⟨_, exec_of_outcome ho⟩
      | none => exact ⟨_, exec_mrtest_of_no_outcome ho⟩
    · obtain ⟨o, ho⟩ := hs.sequencerStep_completes hseq (not_exists.mp hm)
      exact ⟨_, ho⟩

/-- From `s`, the only stop is an access outside the region (spec/20_memory.md R50). -/
def StopsOutsideOnly (s : State) (o : StepOutcome) : Prop :=
  (∃ t, o = .next t) ∨ ∃ addr, s.inRegion addr = false ∧ o = .fault (.outsideRegion addr)

theorem State.inRegion_iff {s : State} {addr : Nat} :
    s.inRegion addr = true ↔ s.base ≤ addr ∧ addr < s.base + 0x4000 := by
  rw [State.inRegion, Bool.and_eq_true, decide_eq_true_iff, decide_eq_true_iff, regionSize]

theorem State.hostAccess_of_outside {s : State} {a : Access} (h : s.inRegion a.addr = false) :
    s.hostAccess a = .fault (.outsideRegion a.addr) := by
  simp [State.hostAccess, h]

theorem State.hostAccess_stops (s : State) (a : Access) : StopsOutsideOnly s (s.hostAccess a) := by
  cases h : s.inRegion a.addr with
  | true => exact .inl ⟨s.regionAccess a, by simp [State.hostAccess, h]⟩
  | false => exact .inr ⟨a.addr, h, State.hostAccess_of_outside h⟩

section
variable {s : State} (hs : s.Inv) (hr : s.rstN = true)
include hs hr

/-- A transaction, then the sequencer's step: the transaction keeps the invariant. -/
theorem stops_host_then_sequencer (a : Access) : StopsOutsideOnly s (andThen (s.hostAccess a) sequencerStep) := by
  rcases s.hostAccess_stops a with ⟨u, hu⟩ | ⟨addr, haddr, hf⟩
  · rw [hu]
    exact .inl (hs.hostAccess hr hu).sequencerStep_answers
  · rw [hf]
    exact .inr ⟨addr, haddr, rfl⟩

theorem sameCycleStep_stops (a : Access) (first : Bool) : StopsOutsideOnly s (sameCycleStep s a first) := by
  cases hb : s.busy with
  | false =>
    rw [sameCycleStep_of_not_busy first hb]
    exact s.hostAccess_stops a
  | true =>
    cases hw : s.hostWins a with
    | true =>
      rw [sameCycleStep_of_hostWins first hb hw]
      exact stops_host_then_sequencer hs hr a
    | false =>
      rw [sameCycleStep_of_free first hb hw]
      cases first with
      | false => exact stops_host_then_sequencer hs hr a
      | true =>
        obtain ⟨t, ht⟩ := hs.sequencerStep_answers
        rw [if_pos rfl, ht, sequencerStep_frame ht]
        exact State.hostAccess_stops _ a

theorem eventStep_stops (e : Event) : StopsOutsideOnly s (eventStep s e) := by
  cases e with
  | sequencer => exact .inl hs.sequencerStep_answers
  | host a => exact s.hostAccess_stops a
  | entropy w => exact .inl ⟨_, rfl⟩
  | resetPin level => exact .inl ⟨_, rfl⟩
  | sameCycle a first => exact sameCycleStep_stops hs hr a first

end

theorem resetStep_answers (s : State) (e : Event) : ∃ t, resetStep s e = .next t := by
  cases e <;> exact ⟨_, rfl⟩

theorem step_stops {s : State} (hs : s.Inv) : StopsOutsideOnly s (step s) := by
  cases ha : s.agenda with
  | nil =>
    cases hr : s.rstN with
    | true =>
      rw [step_of_nil hr ha]
      exact .inl hs.sequencerStep_answers
    | false => exact .inl ⟨s, step_of_nil_low hr ha⟩
  | cons e rest =>
    cases hr : s.rstN with
    | true =>
      rw [step_of_cons hr ha]
      exact eventStep_stops (keptByMoves_inv.agenda rest hs) hr e
    | false =>
      rw [step_of_cons_low hr ha]
      exact .inl (resetStep_answers _ e)

/-- Settles O59: the sequencer answers in every state with the invariant; the port faults outside the region only. -/
theorem stepStopsOnlyOutsideTheRegion : Obligations.StepStopsOnlyOutsideTheRegion := by
  refine ⟨fun s => step_stops, fun s a h => State.hostAccess_of_outside ?_⟩
  rw [Bool.eq_false_iff, Ne, State.inRegion_iff]
  omega

/-! ### A transaction and the sequencer's step in one cycle (R209) -/

section
variable {s t u : State} {a : Access} {first : Bool}

/-- The host comes first where it wins or the event says so. -/
theorem sameCycleStep_host_first (hb : s.busy = true) (h : s.hostWins a = true ∨ first = false)
    (hu : s.hostAccess a = .next u) : sameCycleStep s a first = sequencerStep u := by
  cases hw : s.hostWins a with
  | true =>
    rw [sameCycleStep_of_hostWins first hb hw, hu]
    rfl
  | false =>
    obtain rfl : first = false := h.resolve_left (by simp [hw])
    rw [sameCycleStep_of_free false hb hw, hu]
    rfl

theorem sameCycleStep_sequencer_first (hb : s.busy = true) (hw : s.hostWins a = false)
    (hx : sequencerStep s = .next t) : sameCycleStep s a true = t.hostAccess a := by
  rw [sameCycleStep_of_free true hb hw, hx]
  rfl

end

/-- A soft reset comes first and leaves the sequencer nothing to do: the command is discarded (R209, R231). -/
theorem sameCycleStep_softReset {s : State} (hb : s.busy = true) (first : Bool) {v : Word}
    (hv : v.getLsbD 1 = true) :
    sameCycleStep s (s.memWrite 0x0004 v) first =
      .next (s.softReset.answer (s.memWrite 0x0004 v) .okayWrite) := by
  have hwins : s.hostWins (s.memWrite 0x0004 v) = true := (s.hostWins_memWrite _ v).mpr (by simp [hv])
  have hwrite : s.writeLoc v .ctrl = s.softReset := if_pos hv
  rw [sameCycleStep_host_first hb (.inl hwins) (s.hostAccess_memWrite v (by decide) (by decide)), locate_ctrl,
    hwrite]
  exact sequencerStep_of_idle s.softReset_seq

/-! The writes that come first beside a step that does not discard the command: STATUS and CMD. -/

section
variable {s : State} (hb : s.busy = true) (first : Bool) (v : Word)
include hb

theorem sameCycleStep_writeStatus (hv : v.getLsbD 1 = true) :
    sameCycleStep s (s.memWrite 0x000C v) first =
      sequencerStep ((s.writeStatus v).answer (s.memWrite 0x000C v) .okayWrite) :=
  sameCycleStep_host_first hb (.inl ((s.hostWins_memWrite _ v).mpr (by simp [hv])))
    (s.hostAccess_memWrite v (by decide) (by decide))

theorem sameCycleStep_writeCmd :
    sameCycleStep s (s.memWrite 0x0008 v) first =
      sequencerStep (({ s with status := s.status.setLost } : State).answer (s.memWrite 0x0008 v) .okayWrite) := by
  have hwrite : s.writeLoc v .cmd = { s with status := s.status.setLost } := if_pos hb
  rw [sameCycleStep_host_first hb (.inl ((s.hostWins_memWrite _ v).mpr (by simp)))
    (s.hostAccess_memWrite v (by decide) (by decide)), locate_cmd, hwrite]

end

/-! A sequencer step looks at no DONE, LOST, port, CONFIG or free-value counter, and keeps what the host put there; a
completion alone sets DONE again. -/

/-- A request to the entropy source looks at no DONE, LOST or port. -/
theorem State.requestEntropy_with (s : State) (done lost : Bool) (p : Option Transaction) :
    ({ s with status := { s.status with done := done, lost := lost }, port := p } : State).requestEntropy =
      { s.requestEntropy with
        status := { s.requestEntropy.status with done := done, lost := lost }, port := p } := by
  cases s with
  | mk nlimb base regs seq => cases seq <;> rfl

section
variable {s t : State} (hb : s.busy = true) (hx : sequencerStep s = .next t)
include hb hx

theorem sequencerStep_wait_with (ht : t.busy = true) (done lost : Bool) (p : Option Transaction) :
    sequencerStep { s with status := { s.status with done := done, lost := lost }, port := p } =
      .next { t with status := { t.status with done := done, lost := lost }, port := p } := by
  obtain ⟨rfl, hall⟩ := sequencerStep_wait hb hx ht
  rw [← State.requestEntropy_with]
  exact hall _ rfl rfl

theorem sequencerStep_wait_status (ht : t.busy = true) : t.status = s.status := by
  rw [(sequencerStep_wait hb hx ht).1, State.requestEntropy_status]

variable (ht : t.seq = .idle)
include ht

theorem sequencerStep_complete_with (done lost : Bool) (p : Option Transaction) (rounds : BitVec 8) (ctr : Nat) :
    sequencerStep
        { s with
          status := { s.status with done := done, lost := lost }, port := p, rounds := rounds, freeCtr := ctr } =
      .next { t with status := { t.status with lost := lost }, port := p, rounds := rounds, freeCtr := ctr } := by
  obtain ⟨o, rfl, hall⟩ := sequencerStep_complete hb hx ht
  rw [← State.complete_with s o done]
  exact hall _ rfl rfl

theorem sequencerStep_complete_fields :
    t.status.done = true ∧ t.status.lost = s.status.lost ∧ t.rounds = s.rounds ∧ t.freeCtr = s.freeCtr := by
  obtain ⟨o, rfl, -⟩ := sequencerStep_complete hb hx ht
  exact ⟨s.complete_done o, s.complete_lost o, s.complete_rounds o, s.complete_freeCtr o⟩

end

/-! The pinned writes beside a completion and beside a wait. -/

theorem Status.hostWrite_of_done (st : Status) {v : Word} (hv : v.getLsbD 1 = true) :
    st.hostWrite v = { st with done := false, lost := st.lost && !v.getLsbD 12 } := by
  rw [Status.hostWrite_eq, hv, Bool.not_true, Bool.and_false]

section
variable {s t : State} (hb : s.busy = true) (hx : sequencerStep s = .next t) (first : Bool) {v : Word}
include hb hx

/-- The completion sets the DONE that the host has just cleared (R209). -/
theorem sameCycleStep_writeStatus_complete (ht : t.seq = .idle) (hv : v.getLsbD 1 = true) :
    sameCycleStep s (s.memWrite 0x000C v) first =
      .next ({ t with status := { t.status with lost := t.status.lost && !v.getLsbD 12 } }.answer
        (s.memWrite 0x000C v) .okayWrite) := by
  obtain ⟨-, hlost, hrounds, hctr⟩ := sequencerStep_complete_fields hb hx ht
  rw [sameCycleStep_writeStatus hb first v hv, State.writeStatus, s.status.hostWrite_of_done hv]
  refine (sequencerStep_complete_with hb hx ht false _ _ s.rounds s.freeCtr).trans ?_
  rw [← hlost, ← hrounds, ← hctr]
  rfl

theorem sameCycleStep_writeCmd_complete (ht : t.seq = .idle) :
    sameCycleStep s (s.memWrite 0x0008 v) first =
      .next ({ t with status := { t.status with lost := true } }.answer (s.memWrite 0x0008 v) .okayWrite) := by
  obtain ⟨-, -, hrounds, hctr⟩ := sequencerStep_complete_fields hb hx ht
  rw [sameCycleStep_writeCmd hb first v]
  refine (sequencerStep_complete_with hb hx ht s.status.done true _ s.rounds s.freeCtr).trans ?_
  rw [← hrounds, ← hctr]
  rfl

theorem sameCycleStep_writeStatus_wait (ht : t.busy = true) (hv : v.getLsbD 1 = true) :
    sameCycleStep s (s.memWrite 0x000C v) first =
      .next ({ t with
        status := { t.status with done := false, lost := t.status.lost && !v.getLsbD 12 } }.answer
          (s.memWrite 0x000C v) .okayWrite) := by
  rw [sameCycleStep_writeStatus hb first v hv, State.writeStatus, s.status.hostWrite_of_done hv,
    congrArg Status.lost (sequencerStep_wait_status hb hx ht)]
  exact sequencerStep_wait_with hb hx ht _ _ _

theorem sameCycleStep_writeCmd_wait (ht : t.busy = true) :
    sameCycleStep s (s.memWrite 0x0008 v) first =
      .next ({ t with status := { t.status with lost := true } }.answer (s.memWrite 0x0008 v) .okayWrite) := by
  have hdone : t.status.done = s.status.done := congrArg Status.done (sequencerStep_wait_status hb hx ht)
  rw [sameCycleStep_writeCmd hb first v]
  refine (sequencerStep_wait_with hb hx ht s.status.done true _).trans ?_
  rw [← hdone]
  rfl

end

/-! Transactions whose order beside a completion is free. -/

theorem State.memRead_congr {s t : State} (h : t.base = s.base) (off : Nat) : t.memRead off = s.memRead off := by
  simp only [State.memRead, h]

theorem State.memWrite_congr {s t : State} (h : t.base = s.base) (off : Nat) (v : Word) :
    t.memWrite off v = s.memWrite off v := by
  simp only [State.memWrite, h]

theorem State.hostWins_writeLimb (s : State) (i : RegIdx) (j : Nat) (v : Word) :
    s.hostWins (s.memWrite (limbOffset i j) v) = false := by
  rw [Bool.eq_false_iff, Ne, State.hostWins_memWrite]
  unfold limbOffset
  omega

theorem State.hostWins_writeConfig (s : State) (v : Word) : s.hostWins (s.memWrite 0x0010 v) = false := by
  rw [Bool.eq_false_iff, Ne, State.hostWins_memWrite]
  omega

section
variable {s t : State} (hb : s.busy = true) (hx : sequencerStep s = .next t)
include hb hx

theorem sameCycleStep_read_after {off : Nat} (ho : off < 0x4000) (ha : off % 4 = 0) :
    sameCycleStep s (s.memRead off) true =
      .next ((t.afterRead (locate off)).answer (s.memRead off) (.okayRead (t.readValue (locate off)))) := by
  have hbase : t.base = s.base := by rw [sequencerStep_frame hx]
  rw [sameCycleStep_sequencer_first hb (s.hostWins_memRead off) hx, ← State.memRead_congr hbase,
    t.hostAccess_memRead ho ha]

theorem sameCycleStep_write_after {off : Nat} (ho : off < 0x4000) (ha : off % 4 = 0) {v : Word}
    (hw : s.hostWins (s.memWrite off v) = false) :
    sameCycleStep s (s.memWrite off v) true =
      .next ((t.writeLoc v (locate off)).answer (s.memWrite off v) .okayWrite) := by
  have hbase : t.base = s.base := by rw [sequencerStep_frame hx]
  rw [sameCycleStep_sequencer_first hb hw hx, ← State.memWrite_congr hbase, t.hostAccess_memWrite v ho ha]

variable (ht : t.seq = .idle)
include ht

theorem sameCycleStep_readStatus :
    sameCycleStep s (s.memRead 0x000C) true =
      .next (t.answer (s.memRead 0x000C) (.okayRead t.statusWord)) ∧
    sameCycleStep s (s.memRead 0x000C) false =
      .next (t.answer (s.memRead 0x000C) (.okayRead s.statusWord)) := by
  obtain ⟨-, hlost, hrounds, hctr⟩ := sequencerStep_complete_fields hb hx ht
  refine ⟨sameCycleStep_read_after hb hx (by decide) (by decide), ?_⟩
  rw [sameCycleStep_host_first hb (.inr rfl) (s.hostAccess_memRead (by decide) (by decide))]
  refine (sequencerStep_complete_with hb hx ht s.status.done s.status.lost _ s.rounds s.freeCtr).trans ?_
  rw [← hlost, ← hrounds, ← hctr]
  rfl

/-- CONFIG has the same value in both orders: the held command has its own round count. -/
theorem sameCycleStep_writeConfig (v : Word) (first : Bool) :
    sameCycleStep s (s.memWrite 0x0010 v) first =
      .next ({ t with rounds := v.extractLsb' 0 8 }.answer (s.memWrite 0x0010 v) .okayWrite) := by
  obtain ⟨-, hlost, -, hctr⟩ := sequencerStep_complete_fields hb hx ht
  cases first with
  | true => exact sameCycleStep_write_after hb hx (by decide) (by decide) (s.hostWins_writeConfig v)
  | false =>
    rw [sameCycleStep_host_first hb (.inr rfl) (s.hostAccess_memWrite v (by decide) (by decide))]
    refine (sequencerStep_complete_with hb hx ht s.status.done s.status.lost _ _ s.freeCtr).trans ?_
    rw [← hlost, ← hctr]
    rfl

section
variable (i : RegIdx) {j : Nat} (v : Word) (hn : s.nlimb ≤ 256) (hj : j < s.nlimb)
include hn hj

theorem sameCycleStep_writeLimb :
    sameCycleStep s (s.memWrite (limbOffset i j) v) true =
      .next ({ t with regs := t.regs.set i.val (setLimb (t.reg i) j v) }.answer
        (s.memWrite (limbOffset i j) v) .okayWrite) ∧
    sameCycleStep s (s.memWrite (limbOffset i j) v) false =
      .next ({ t with status := { t.status with lost := true } }.answer
        (s.memWrite (limbOffset i j) v) .okayWrite) := by
  obtain ⟨-, -, hrounds, hctr⟩ := sequencerStep_complete_fields hb hx ht
  have hjt : j < t.nlimb := by rwa [sequencerStep_frame hx]
  have hj' : j < 256 := by omega
  constructor
  · rw [sameCycleStep_write_after hb hx (limbOffset_lt i j hj') (limbOffset_mod i j) (s.hostWins_writeLimb i j v),
      locate_limbOffset i j hj', State.writeLoc, State.writeLimb_of_not_busy i v (State.busy_of_idle ht) hjt]
    rfl
  · rw [sameCycleStep_host_first hb (.inr rfl) (s.hostAccess_writeLimb i v hj'), State.writeLimb_of_busy i v hb]
    refine (sequencerStep_complete_with hb hx ht s.status.done true _ s.rounds s.freeCtr).trans ?_
    rw [← hrounds, ← hctr]
    rfl

theorem sameCycleStep_readLimb :
    sameCycleStep s (s.memRead (limbOffset i j)) true =
      .next (t.answer (s.memRead (limbOffset i j)) (.okayRead (limb (t.reg i) j))) ∧
    sameCycleStep s (s.memRead (limbOffset i j)) false =
      .next ({ t with freeCtr := s.freeCtr + 1 }.answer (s.memRead (limbOffset i j))
        (.okayRead (Config.freeWord s.freeCtr))) := by
  obtain ⟨-, hlost, hrounds, -⟩ := sequencerStep_complete_fields hb hx ht
  have hidle := State.busy_of_idle ht
  have hjt : j < t.nlimb := by rwa [sequencerStep_frame hx]
  have hj' : j < 256 := by omega
  constructor
  · rw [sameCycleStep_read_after hb hx (limbOffset_lt i j hj') (limbOffset_mod i j), locate_limbOffset i j hj',
      State.afterRead_limb_of_not_busy i hidle, State.readValue_limb_of_not_busy i hidle hjt]
  · rw [sameCycleStep_host_first hb (.inr rfl) (s.hostAccess_readLimb i hj'), State.afterRead_limb_of_busy i hb,
      State.readValue_limb_of_busy i hb]
    refine (sequencerStep_complete_with hb hx ht s.status.done s.status.lost _ s.rounds (s.freeCtr + 1)).trans ?_
    rw [← hlost, ← hrounds]
    rfl

end

end

/-- Settles O54: the pinned writes beside a completion and beside a wait, which writes those are, and both orders of
every other transaction. -/
theorem sameCycleOrder : Obligations.SameCycleOrder := by
  refine ⟨fun s t first v hb hx ht => ?_, fun s t first v hb hx ht => ?_,
    fun s u a first hb hw hu => sameCycleStep_host_first hb (.inl hw) hu, State.hostWins_iff,
    fun s a hb hw => ⟨fun t hx => sameCycleStep_sequencer_first hb hw hx,
      fun u hu => sameCycleStep_host_first hb (.inr rfl) hu⟩,
    fun s t hb hx ht => ?_, fun s a first => sameCycleStep_of_not_busy first⟩
  · have hdone : t.status.done = true := (sequencerStep_complete_fields hb hx ht).1
    have hcmd : t.cmdLast = s.cmdLast := by rw [sequencerStep_frame hx]
    exact ⟨sameCycleStep_softReset hb first,
      fun hv => ⟨_, sameCycleStep_writeStatus_complete hb hx first ht hv, hdone, rfl⟩,
      _, sameCycleStep_writeCmd_complete hb hx first ht, rfl, hcmd, rfl, hdone, rfl, rfl, rfl, rfl⟩
  · exact ⟨sameCycleStep_softReset hb first, sameCycleStep_writeStatus_wait hb hx first ht,
      sameCycleStep_writeCmd_wait hb hx first ht⟩
  · obtain ⟨hafter, hbefore⟩ := sameCycleStep_readStatus hb hx ht
    refine ⟨hafter, hbefore, sameCycleStep_writeConfig hb hx ht, fun i j v hn hj => ?_⟩
    obtain ⟨hwa, hwb⟩ := sameCycleStep_writeLimb hb hx ht i v hn hj
    obtain ⟨hra, hrb⟩ := sameCycleStep_readLimb hb hx ht i hn hj
    exact ⟨hwa, hwb, hra, hrb⟩

/-! ### The interrupt line (R207) -/

theorem State.irq_of_not_done {s : State} (h : s.status.done = false) : s.irq = false := by
  rw [State.irq, h, Bool.false_and]

theorem State.irq_of_not_ie {s : State} (h : s.ie = false) : s.irq = false := by
  rw [State.irq, h, Bool.and_false]

theorem State.writeCtrl_ie_of_not_ie (s : State) {v : Word} (hv : v.getLsbD 0 = false) :
    (s.writeCtrl v).ie = false := by
  unfold State.writeCtrl
  split
  · exact s.softReset_ie
  · exact hv

/-- A window write reaches neither DONE nor IE, whether it is stored, lost or dropped. -/
theorem State.writeLimb_irq (s : State) (i : RegIdx) (j : Nat) (v : Word) : (s.writeLimb i j v).irq = s.irq := by
  unfold State.writeLimb
  split
  · rfl
  · split <;> rfl

/-- Settles O41: each operation's effect on DONE and IE. -/
theorem interruptLine : Obligations.InterruptLine := by
  intro s
  refine ⟨rfl, fun o => ?_, fun v hv => State.irq_of_not_done ?_, fun v => rfl,
    fun v hv => State.irq_of_not_ie (s.writeCtrl_ie_of_not_ie hv), State.irq_of_not_ie s.softReset_ie,
    State.irq_of_not_ie s.hardReset_ie, fun v hb => ?_, s.writeLimb_irq, fun a _ hl => ?_⟩
  · rw [State.irq, State.complete_done, State.complete_ie, Bool.true_and]
  · rw [State.writeStatus_status, Status.hostWrite_done, if_pos hv]
  · rw [State.writeCmd, if_pos hb]
    rfl
  · rw [State.regionAccess_of_illegal (by simp [hl])]
    rfl

end Sys2Proof.Machine

/-! What the two resets leave, and the unit while `rst_n` is low (spec/70_reset_and_hazards.md). -/

namespace Sys2Proof.Machine

/-! ### The control registers after a reset -/

section
variable {s : State}

theorem State.requested_of_idle (h : s.seq = .idle) : s.requested = false := by
  rw [State.requested, h]

theorem State.ctrlWord_of_not_ie (h : s.ie = false) : s.ctrlWord = 0x00000000#32 := by
  rw [s.ctrlWord_eq, h]
  rfl

/-- STATUS reads 0 where nothing runs and no flag is set (spec/10_state.md R29). -/
theorem State.statusWord_of_idle_of_zero (hseq : s.seq = .idle) (hst : s.status = Status.zero) :
    s.statusWord = 0x00000000#32 := by
  rw [State.statusWord, hst, State.busy_of_idle hseq]
  rfl

theorem State.configWord_of_rounds {n : BitVec 8} (h : s.rounds = n) : s.configWord = n.setWidth 32 := by
  rw [s.configWord_eq, h]

end

/-! ### The reset pin (R230) -/

theorem State.driveReset_of_high {s : State} (h : s.rstN = true) : s.driveReset true = s :=
  if_pos (by rw [h]; rfl)

/-- Settles O51: the fields of the hard reset under the driven pin, the pin's no-op, and each event while it is low. -/
theorem hardReset : Obligations.HardReset := by
  refine ⟨fun s level hlow => ?_, fun s => State.driveReset_of_high, fun s rest hr => ?_⟩
  · have hseq := s.hardReset_seq
    have hie := s.hardReset_ie
    rw [s.driveReset_of_low level hlow]
    exact ⟨rfl, hseq, State.requested_of_idle hseq, State.paramWord_congr s.hardReset_nlimb,
      State.ctrlWord_of_not_ie hie, s.hardReset_cmdLast, State.statusWord_of_idle_of_zero hseq s.hardReset_status,
      State.configWord_of_rounds s.hardReset_rounds, State.irq_of_not_ie hie, rfl, s.hardReset_reg⟩
  · exact ⟨fun _ => step_of_cons_low hr, fun _ _ => step_of_cons_low hr, step_of_cons_low hr,
      fun _ => step_of_cons_low hr, fun _ => step_of_cons_low hr, step_of_nil_low hr⟩

/-! ### Soft reset (R231) -/

theorem State.softReset_of_idle {s : State} (h : s.seq = .idle) : s.softReset = s.clearControl := by
  rw [State.softReset, h]

/-- The destinations of an aborted command become unspecified. -/
theorem State.softReset_of_busy {s : State} {h : Held} (hs : s.seq = .busy h) :
    s.softReset = (s.scrambleAll (wordDests h.word)).clearControl := by
  rw [State.softReset, hs]

/-- Settles O52: the write rule of CTRL, and the two cases of a soft reset. -/
theorem softReset : Obligations.SoftReset := by
  intro s
  refine ⟨fun v hv => ?_, fun hidle => ?_, fun h hbusy => ?_⟩
  · obtain ⟨-, hreset, -⟩ := ctrlRegister s v
    exact (hreset hv).1
  · rw [State.softReset_of_idle hidle, State.clearControl, ← hidle]
  · have hseq := s.softReset_seq
    refine ⟨hseq, s.softReset_ie, s.softReset_cmdLast, State.statusWord_of_idle_of_zero hseq s.softReset_status,
      s.softReset_rounds, State.requested_of_idle hseq, fun r hr => ?_, fun r hr => ?_⟩
    · rw [State.softReset_of_busy hbusy]
      exact (s.reg_scrambleAll _ r).1 hr
    · rw [State.softReset_of_busy hbusy]
      exact (s.reg_scrambleAll _ r).2 hr

/-! ### The first command after a reset (R232) -/

/-- After the soft reset, or the release of the hard one, the sequencer is IDLE and CONFIG.ROUNDS is 10. -/
theorem seq_rounds_of_reset {s u : State} (h : u = s.softReset ∨ (s.rstN = false ∧ u = s.driveReset true)) :
    u.seq = .idle ∧ u.rounds = 10#8 := by
  rcases h with rfl | ⟨hr, rfl⟩
  · exact ⟨s.softReset_seq, s.softReset_rounds⟩
  · rw [s.driveReset_of_low true (.inr hr)]
    exact ⟨s.hardReset_seq, s.hardReset_rounds⟩

/-- Settles O53: a CMD write with the sequencer IDLE is an acceptance, which latches CONFIG.ROUNDS. -/
theorem firstCommandAfterResetIsAccepted : Obligations.FirstCommandAfterResetIsAccepted := by
  intro s u v hu
  obtain ⟨hidle, hrounds⟩ := seq_rounds_of_reset hu
  obtain ⟨-, haccept, -⟩ := cmdRegister u v
  have hb := State.busy_of_idle hidle
  refine ⟨hb, _, haccept hb, rfl, ?_⟩
  rw [← hrounds]
  rfl

end Sys2Proof.Machine
